-- ==== Sys2Proof/Word.lean ====
section
/-! DEFINITION. The value types of TM1640-FRAMER (00_scope R6, R8). -/

namespace Sys2Proof

/-- A byte: a wire byte, a mirror cell, a character code (00_scope R8, R11). -/
abbrev Byte := BitVec 8

/-- A numeric operand or payload lane, `ARGW` = 32 bits, read as signed where a rule says so (00_scope R6). -/
abbrev Word := BitVec 32

/-- A pin identifier, an opaque name of `PINW` = 8 bits (00_scope R6, 10_state R22). -/
abbrev PinId := BitVec 8

/-- The level of a pin: `true` is 1 (40_transport R110). -/
abbrev Level := Bool

end Sys2Proof
end

