-- ==== Sys2Proof/Syntax.lean ====
section
/-! DEFINITION. The instructions (one constructor per row of spec/opcode_table.json) and the port bundles that carry
them (30_encoding R80, R81, R88, R91). -/

namespace Sys2Proof

/-- The instructions of the three layers of 30_encoding R80. -/
inductive Instr where
  /-- W.DATA, the data command byte 0x40 (R82). -/
  | wData
  /-- W.ADDR, the address command byte 0xC0 with the position (R83). -/
  | wAddr (pos : BitVec 4)
  /-- W.DISP, the display-control command byte (R84). -/
  | wDisp (on : Bool) (bri : BitVec 3)
  /-- T.SETCLK, drive the clock pin (R111). -/
  | tSetclk (lvl : Level)
  /-- T.SETDAT, drive the data pin (R112). -/
  | tSetdat (lvl : Level)
  /-- T.START (R113). -/
  | tStart
  /-- T.STOP (R114). -/
  | tStop
  /-- T.WBYTE, shift out one byte (R115). -/
  | tWbyte (byte : Byte)
  /-- T.DATACMD, the data-command transaction (R117). -/
  | tDatacmd
  /-- T.DISPCTL, the display-control transaction (R118). -/
  | tDispctl (on : Bool) (bri : BitVec 3)
  /-- T.ADDRWR, the address-plus-payload frame (R119). -/
  | tAddrwr (pos : BitVec 4) (len : BitVec 5) (data : Vector Byte 16)
  /-- A reserved TPORT opcode 1000 to 1111, `low` its low three bits (R92). -/
  | tReserved (low : BitVec 3)
  /-- INIT (R156). -/
  | init (clk dio : PinId) (a : Word)
  /-- SETBRI (R157). -/
  | setbri (a : Word)
  /-- SETPWR (R158). -/
  | setpwr (a : Word)
  /-- WRMEM (R159). -/
  | wrmem (a : Word) (len : BitVec 5) (data : Vector Word 16)
  /-- CLEAR (R160). -/
  | clear
  /-- REFRESH (R161). -/
  | refresh
  /-- SHOWINT (R188). -/
  | showint (a : Word)
  /-- SHOWFLT1 (R189). -/
  | showflt1 (a : Word)
  /-- A reserved CPORT opcode 1000 to 1111, `low` its low three bits (R90). -/
  | cReserved (low : BitVec 3)
  deriving DecidableEq, Repr

/-- The command port's signals (30_encoding R88). -/
structure CBundle where
  op : BitVec 4
  a : Word
  clk : PinId
  dio : PinId
  len : BitVec 5
  data : Vector Word 16
  deriving DecidableEq, Repr

/-- The transport request port's signals (30_encoding R91). -/
structure TBundle where
  op : BitVec 4
  lvl : Level
  byte : Byte
  pos : BitVec 4
  on : Bool
  bri : BitVec 3
  len : BitVec 5
  data : Vector Byte 16
  deriving DecidableEq, Repr

/-- One request as it is presented: a bundle on CPORT, a bundle on TPORT, or a wire command byte handed to the
byte shifter (30_encoding R80, R81). -/
inductive Request where
  | cport (b : CBundle)
  | tport (b : TBundle)
  | wire (b : Byte)
  deriving DecidableEq, Repr

/-- The three encoding layers, the "format" of an opcode-table row (30_encoding R80). -/
inductive Port where
  | wire8
  | tport
  | cport
  deriving DecidableEq, Repr

/-- The layer an instruction belongs to. -/
def Instr.port : Instr → Port
  | .wData | .wAddr _ | .wDisp _ _ => .wire8
  | .tSetclk _ | .tSetdat _ | .tStart | .tStop | .tWbyte _ | .tDatacmd | .tDispctl _ _ | .tAddrwr _ _ _
  | .tReserved _ => .tport
  | .init _ _ _ | .setbri _ | .setpwr _ | .wrmem _ _ _ | .clear | .refresh | .showint _ | .showflt1 _
  | .cReserved _ => .cport

end Sys2Proof
end

