-- ==== Sys2Proof/WellFormed.lean ====
section
/-! DEFINITION. Well-formed instructions: every operand in the range the opcode table states for it. All other
operands are as wide as their fields, so every value of theirs is in range. -/

namespace Sys2Proof

/-- `c_len` and `t_len` are "0..16" in the opcode table. An instruction that fails this check still runs: WRMEM treats a
greater length as 16 (30_encoding R93), T.ADDRWR sends a free payload (log 11). -/
def Instr.wf : Instr → Bool
  | .tAddrwr _ len _ => decide (len.toNat ≤ 16)
  | .wrmem _ len _ => decide (len.toNat ≤ 16)
  | .wData | .wAddr _ | .wDisp _ _ | .tSetclk _ | .tSetdat _ | .tStart | .tStop | .tWbyte _ | .tDatacmd
  | .tDispctl _ _ | .tReserved _ | .init _ _ _ | .setbri _ | .setpwr _ | .clear | .refresh | .showint _
  | .showflt1 _ | .cReserved _ => true

end Sys2Proof
end

