-- ==== Sys2Proof/Decode.lean ====
section
/-! DEFINITION. Decoding of wire bytes and port bundles (30_encoding R81 to R94), the packed form of a request, the
encoder, and the opcode table's rows. -/

namespace Sys2Proof

/-- What decoding answers: an instruction, or the rejection by name of a first byte that 30_encoding R87 classifies as
`unknown`. -/
inductive Decoded where
  | instr (i : Instr)
  | unknownFirstByte (b : Byte)
  deriving DecidableEq, Repr

/-- The instruction of an answer, none for a rejection. -/
def Decoded.toOption : Decoded → Option Instr
  | .instr i => some i
  | .unknownFirstByte _ => none

/-- The wire layer (R82, R83, R84; the map of 20_memory R60): match and mask as in the opcode table. -/
def decodeWire (b : Byte) : Decoded :=
  if b = 0x40#8 then .instr .wData
  else if b &&& 0xF0#8 = 0xC0#8 then .instr (.wAddr (b.extractLsb' 0 4))
  else if b &&& 0xF0#8 = 0x80#8 then .instr (.wDisp (b.getLsbD 3) (b.extractLsb' 0 3))
  else .unknownFirstByte b

/-- The transport layer's opcodes (R91, R92). Operands a request does not use are ignored (R98). -/
def decodeT (b : TBundle) : Instr :=
  match b.op with
  | 0b0000#4 => .tSetclk b.lvl
  | 0b0001#4 => .tSetdat b.lvl
  | 0b0010#4 => .tStart
  | 0b0011#4 => .tStop
  | 0b0100#4 => .tWbyte b.byte
  | 0b0101#4 => .tDatacmd
  | 0b0110#4 => .tDispctl b.on b.bri
  | 0b0111#4 => .tAddrwr b.pos b.len b.data
  | op => .tReserved (op.extractLsb' 0 3)

/-- The command layer's opcodes (R89, R90). Operands a command does not use are ignored (R88). -/
def decodeC (b : CBundle) : Instr :=
  match b.op with
  | 0b0000#4 => .init b.clk b.dio b.a
  | 0b0001#4 => .setbri b.a
  | 0b0010#4 => .setpwr b.a
  | 0b0011#4 => .wrmem b.a b.len b.data
  | 0b0100#4 => .clear
  | 0b0101#4 => .refresh
  | 0b0110#4 => .showint b.a
  | 0b0111#4 => .showflt1 b.a
  | op => .cReserved (op.extractLsb' 0 3)

/-- Decoding of a request on any of the three layers; total. -/
def decode : Request → Decoded
  | .cport b => .instr (decodeC b)
  | .tport b => .instr (decodeT b)
  | .wire b => decodeWire b

/-! ### The encoder -/

/-- A CPORT bundle with every operand zero: the don't-care operands of an encoded command (R98). -/
def cIdle (op : BitVec 4) : CBundle :=
  { op := op, a := 0, clk := 0, dio := 0, len := 0, data := Vector.replicate 16 0 }

/-- A TPORT bundle with every operand zero. -/
def tIdle (op : BitVec 4) : TBundle :=
  { op := op, lvl := false, byte := 0, pos := 0, on := false, bri := 0, len := 0, data := Vector.replicate 16 0 }

/-- The data command byte `01000000` (R82). -/
def dataCmdByte : Byte := 0x40#8

/-- The address command byte `1100pppp`: `0xC0 | pos` (R83, R93). -/
def addrByte (pos : BitVec 4) : Byte := 0xC0#8 ||| pos.zeroExtend 8

/-- The display-control byte `1000sbbb`: `0x80 | (on ? 0x08 : 0x00) | bri` (R84, R93). -/
def dispCtlByte (on : Bool) (bri : BitVec 3) : Byte :=
  0x80#8 ||| (if on then 0x08#8 else 0x00#8) ||| bri.zeroExtend 8

/-- The request that carries an instruction, from the tables of R82 to R84, R89 and R91. -/
def encode : Instr → Request
  | .wData => .wire dataCmdByte
  | .wAddr pos => .wire (addrByte pos)
  | .wDisp on bri => .wire (dispCtlByte on bri)
  | .tSetclk lvl => .tport { tIdle 0b0000#4 with lvl := lvl }
  | .tSetdat lvl => .tport { tIdle 0b0001#4 with lvl := lvl }
  | .tStart => .tport (tIdle 0b0010#4)
  | .tStop => .tport (tIdle 0b0011#4)
  | .tWbyte byte => .tport { tIdle 0b0100#4 with byte := byte }
  | .tDatacmd => .tport (tIdle 0b0101#4)
  | .tDispctl on bri => .tport { tIdle 0b0110#4 with on := on, bri := bri }
  | .tAddrwr pos len data => .tport { tIdle 0b0111#4 with pos := pos, len := len, data := data }
  | .tReserved low => .tport (tIdle (1#1 ++ low))
  | .init clk dio a => .cport { cIdle 0b0000#4 with clk := clk, dio := dio, a := a }
  | .setbri a => .cport { cIdle 0b0001#4 with a := a }
  | .setpwr a => .cport { cIdle 0b0010#4 with a := a }
  | .wrmem a len data => .cport { cIdle 0b0011#4 with a := a, len := len, data := data }
  | .clear => .cport (cIdle 0b0100#4)
  | .refresh => .cport (cIdle 0b0101#4)
  | .showint a => .cport { cIdle 0b0110#4 with a := a }
  | .showflt1 a => .cport { cIdle 0b0111#4 with a := a }
  | .cReserved low => .cport (cIdle (1#1 ++ low))

/-! ### The packed form of a request (log 2)

The spec's bundles are parallel signals and have no order of bits. A packed request is one number: bits 3:0 the opcode,
bits 7:4 the port (0 CPORT, 1 TPORT), then the operands, each in its width, in the order of R88's and R91's lists. A
WIRE8 request is its byte itself: bits 7:4 of every wire command are 4, 8 or 12, so no packed opcode byte collides with
one (R87). -/

/-- Put a field below the rest of a packed number. -/
def putField {w : Nat} (v : BitVec w) (rest : Nat) : Nat := v.toNat + 2 ^ w * rest

/-- Read a field of `w` bits from the bottom of a packed number. -/
def fieldOf (w n : Nat) : BitVec w := BitVec.ofNat w n

/-- A packed number without its lowest field of `w` bits. -/
def dropField (w n : Nat) : Nat := n / 2 ^ w

/-- Pack a list of lanes, lane 0 lowest. -/
def packLanes {w : Nat} : List (BitVec w) → Nat
  | [] => 0
  | v :: vs => putField v (packLanes vs)

/-- Lane `k` of packed lanes of `w` bits. -/
def laneOf (w n k : Nat) : BitVec w := fieldOf w (n / 2 ^ (w * k))

/-- The sixteen lanes of a packed number. -/
def unpackLanes (w n : Nat) : Vector (BitVec w) 16 :=
  #v[laneOf w n 0, laneOf w n 1, laneOf w n 2, laneOf w n 3, laneOf w n 4, laneOf w n 5, laneOf w n 6, laneOf w n 7,
     laneOf w n 8, laneOf w n 9, laneOf w n 10, laneOf w n 11, laneOf w n 12, laneOf w n 13, laneOf w n 14, laneOf w n 15]

/-- The packed form of a request. -/
def pack : Request → Nat
  | .wire b => b.toNat
  | .cport b =>
    putField b.op <| putField 0#4 <| putField b.a <| putField b.clk <| putField b.dio <| putField b.len <|
      packLanes b.data.toList
  | .tport b =>
    putField b.op <| putField 1#4 <| putField (BitVec.ofBool b.lvl) <| putField b.byte <| putField b.pos <|
      putField (BitVec.ofBool b.on) <| putField b.bri <| putField b.len <| packLanes b.data.toList

/-- The CPORT bundle of a packed number, its opcode byte included. -/
def unpackC (n : Nat) : CBundle :=
  let r := dropField 4 (dropField 4 n)
  { op := fieldOf 4 n
    a := fieldOf 32 r
    clk := fieldOf 8 (r / 2 ^ 32)
    dio := fieldOf 8 (r / 2 ^ 40)
    len := fieldOf 5 (r / 2 ^ 48)
    data := unpackLanes 32 (r / 2 ^ 53) }

/-- The TPORT bundle of a packed number, its opcode byte included. -/
def unpackT (n : Nat) : TBundle :=
  let r := dropField 4 (dropField 4 n)
  { op := fieldOf 4 n
    lvl := r.testBit 0
    byte := fieldOf 8 (r / 2 ^ 1)
    pos := fieldOf 4 (r / 2 ^ 9)
    on := r.testBit 13
    bri := fieldOf 3 (r / 2 ^ 14)
    len := fieldOf 5 (r / 2 ^ 17)
    data := unpackLanes 8 (r / 2 ^ 22) }

/-- The request of a packed number; total. -/
def unpack (n : Nat) : Request :=
  if n / 16 % 16 = 0 then .cport (unpackC n)
  else if n / 16 % 16 = 1 then .tport (unpackT n)
  else .wire (fieldOf 8 n)

/-- The packed form of an instruction. -/
def encodeWord (i : Instr) : Nat := pack (encode i)

/-- The instruction of a packed form. -/
def decodeWord (n : Nat) : Decoded := decode (unpack n)

/-- The host's view of the decoder on an opcode-table word: the packed request whose low `nbits` bits are `w` and whose
other bits are 0. A bare port opcode 0 to 15 is read as a CPORT command; the TPORT request with the same opcode number
has 1 in bits 7:4 (log 2). -/
def decodeTableWord (nbits w : Nat) : Option Instr := (decodeWord (w % 2 ^ nbits)).toOption

/-! ### The opcode table -/

/-- One row of spec/opcode_table.json. -/
structure OpRow where
  mnemonic : String
  format : Port
  pattern : Nat
  mask : Nat
  deriving DecidableEq, Repr

/-- The rows of spec/opcode_table.json, in its order. -/
def opcodeTable : List OpRow :=
  [⟨"W.DATA", .wire8, 0x40, 0xFF⟩, ⟨"W.ADDR", .wire8, 0xC0, 0xF0⟩, ⟨"W.DISP", .wire8, 0x80, 0xF0⟩] ++
  [⟨"T.SETCLK", .tport, 0, 0xF⟩, ⟨"T.SETDAT", .tport, 1, 0xF⟩, ⟨"T.START", .tport, 2, 0xF⟩,
   ⟨"T.STOP", .tport, 3, 0xF⟩, ⟨"T.WBYTE", .tport, 4, 0xF⟩, ⟨"T.DATACMD", .tport, 5, 0xF⟩,
   ⟨"T.DISPCTL", .tport, 6, 0xF⟩, ⟨"T.ADDRWR", .tport, 7, 0xF⟩, ⟨"T.RESERVED", .tport, 8, 0x8⟩] ++
  [⟨"INIT", .cport, 0, 0xF⟩, ⟨"SETBRI", .cport, 1, 0xF⟩, ⟨"SETPWR", .cport, 2, 0xF⟩, ⟨"WRMEM", .cport, 3, 0xF⟩,
   ⟨"CLEAR", .cport, 4, 0xF⟩, ⟨"REFRESH", .cport, 5, 0xF⟩, ⟨"SHOWINT", .cport, 6, 0xF⟩,
   ⟨"SHOWFLT1", .cport, 7, 0xF⟩, ⟨"C.RESERVED", .cport, 8, 0x8⟩]

/-- The mnemonic of an instruction's row. -/
def Instr.mnemonic : Instr → String
  | .wData => "W.DATA"
  | .wAddr _ => "W.ADDR"
  | .wDisp _ _ => "W.DISP"
  | .tSetclk _ => "T.SETCLK"
  | .tSetdat _ => "T.SETDAT"
  | .tStart => "T.START"
  | .tStop => "T.STOP"
  | .tWbyte _ => "T.WBYTE"
  | .tDatacmd => "T.DATACMD"
  | .tDispctl _ _ => "T.DISPCTL"
  | .tAddrwr _ _ _ => "T.ADDRWR"
  | .tReserved _ => "T.RESERVED"
  | .init _ _ _ => "INIT"
  | .setbri _ => "SETBRI"
  | .setpwr _ => "SETPWR"
  | .wrmem _ _ _ => "WRMEM"
  | .clear => "CLEAR"
  | .refresh => "REFRESH"
  | .showint _ => "SHOWINT"
  | .showflt1 _ => "SHOWFLT1"
  | .cReserved _ => "C.RESERVED"

/-- The layer and the opcode bits of a request: the whole byte on the wire layer, the four opcode bits on a port. -/
def Request.opcodeBits : Request → Port × Nat
  | .wire b => (.wire8, b.toNat)
  | .tport b => (.tport, b.op.toNat)
  | .cport b => (.cport, b.op.toNat)

/-- The opcode-table rows of a layer that these opcode bits match under the row's mask. -/
def rowsFor (bits : Port × Nat) : List OpRow :=
  opcodeTable.filter fun row => row.format = bits.1 ∧ bits.2 &&& row.mask = row.pattern

/-- The opcode-table rows that a request matches. -/
def Request.matching (r : Request) : List OpRow := rowsFor r.opcodeBits

end Sys2Proof
end

