-- ==== Sys2Proof/Config.lean ====
section
/-! DEFINITION. What the spec leaves to the implementation (00_scope R6): the open parameters, as free values that
nothing in Lean can evaluate. The fixed parameters (sizes, ranges) stand where they are used; the font table is
configuration that State carries (log 6). -/

namespace Sys2Proof

/-- `HS_WAIT` (00_scope R6, D9): whether each of INIT's two handshake pin writes is followed by a wait.
Free value, log 5: every statement holds for both readings. -/
opaque Config.hsWait : Bool

/-- `PIN_RESET_LEVEL` (00_scope R6, 10_state R27, R35, D7): the level of a pin before the block first drives it, a fresh
draw for each pin after each reset (`State.resets`). Free value, log 4. -/
opaque Config.pinResetLevel : Nat → PinId → Level

/-- The data bytes that a T.ADDRWR request sends when its `t_len` lies above the stated range 0 to 16
(40_transport R119). Free value, log 11. -/
opaque Config.overlongPayload : BitVec 5 → Vector Byte 16 → List Byte

end Sys2Proof
end

