-- ==== Sys2Proof/Machine/Encoder.lean ====
section
/-! DEFINITION. The seven-segment character encoder (41_font_encoder R140 to R148) and the decimal strings it is given
(43_renderers R185). -/

namespace Sys2Proof.Machine

/-- A character, by its code (00_scope R11, 30_encoding R97: ASCII, log 7). -/
abbrev Char8 := Byte

/-- A font table: one pattern for each of the twelve characters (R142). -/
structure FontTable where
  d0 : Byte
  d1 : Byte
  d2 : Byte
  d3 : Byte
  d4 : Byte
  d5 : Byte
  d6 : Byte
  d7 : Byte
  d8 : Byte
  d9 : Byte
  minus : Byte
  blank : Byte
  deriving DecidableEq, Repr

/-- The constraint on a configured table: the six values D00 fixes, '1' to '5' and blank (R142), and bit 7, "reserved for
decimal point", 0 in every entry (R144, 30_encoding R98). -/
def FontTable.admissible (t : FontTable) : Bool :=
  t.d1 = 0x06#8 && t.d2 = 0x5B#8 && t.d3 = 0x4F#8 && t.d4 = 0x66#8 && t.d5 = 0x6D#8 && t.blank = 0x00#8 &&
  [t.d0, t.d1, t.d2, t.d3, t.d4, t.d5, t.d6, t.d7, t.d8, t.d9, t.minus, t.blank].all fun p => !p.getLsbD 7

/-- The default contents of `FONT` (00_scope R6, R142), the table of `State.reset`. The digits 1 to 5 and blank are D00's; the other six are
the spec's default from general knowledge: PRESUMED, log 6. -/
def defaultFont : FontTable :=
  { d0 := 0x3F#8, d1 := 0x06#8, d2 := 0x5B#8, d3 := 0x4F#8, d4 := 0x66#8, d5 := 0x6D#8
    d6 := 0x7D#8, d7 := 0x07#8, d8 := 0x7F#8, d9 := 0x6F#8, minus := 0x40#8, blank := 0x00#8 }

/-- The code of `'-'`. -/
def minusCode : Char8 := 0x2D#8

/-- The code of `' '`. -/
def blankCode : Char8 := 0x20#8

/-- The code of the digit `d`, the character `'0' + d` (43_renderers R189). -/
def digitCode (d : Nat) : Char8 := BitVec.ofNat 8 (0x30 + d)

/-- `FONT(c)`: the table's entry, 0x00 for a character the table does not have (R140, R143). -/
def fontLookup (t : FontTable) (c : Char8) : Byte :=
  match c.toNat with
  | 0x30 => t.d0
  | 0x31 => t.d1
  | 0x32 => t.d2
  | 0x33 => t.d3
  | 0x34 => t.d4
  | 0x35 => t.d5
  | 0x36 => t.d6
  | 0x37 => t.d7
  | 0x38 => t.d8
  | 0x39 => t.d9
  | 0x2D => t.minus
  | 0x20 => t.blank
  | _ => 0x00#8

/-- `fontmap(s)` (R146). -/
def fontMap (t : FontTable) (s : List Char8) : List Byte := s.map (fontLookup t)

/-- The decimal-point overlay `p | 0x80` (R144). -/
def withPoint (p : Byte) : Byte := p ||| 0x80#8

/-- The digits of a natural number in base 10, most significant first; `fuel` at least the number is always enough. -/
def decimalDigits : Nat → Nat → List Nat
  | 0, n => [n % 10]
  | fuel + 1, n => if n < 10 then [n] else decimalDigits fuel (n / 10) ++ [n % 10]

/-- `decstr(n)`, the decimal string of an integer, a negative one with a leading `'-'` (43_renderers R185, R191). -/
def decstr (n : Int) : List Char8 :=
  (if n < 0 then [minusCode] else []) ++ (decimalDigits n.natAbs n.natAbs).map digitCode

end Sys2Proof.Machine
end

