-- ==== Sys2Proof/Machine/State.lean ====
section
/-! DEFINITION. The state of the machine (10_state R20 to R37), its faults and refusals, and the state after power-up. -/

namespace Sys2Proof.Machine

/-- An event of the Transport on the outside world (40_transport R110): `pin id b` is `writeDigital(id, b)`, with the
identifier bound when it is emitted; `wait` is one `DELTA` (R116). -/
inductive Event where
  | pin (id : PinId) (level : Level)
  | wait
  deriving DecidableEq, Repr

/-- The registers that exist only while a driver exists: the pin binding PINCLK, PINDIO (10_state R22) and BRIGHT
(R23). -/
structure Driver where
  pinclk : PinId
  pindio : PinId
  bright : BitVec 3
  deriving DecidableEq, Repr

/-- `STATE` (10_state R21). `active` carries the registers that have no value while Uninitialized (R35: absent, not
zero) (log 3). -/
inductive Mode where
  | uninitialized
  | active (d : Driver)
  deriving DecidableEq, Repr

/-- The mirror `gram[0..15]` (10_state R25, space G of 20_memory R50): the cells that are not 0x00, positions strictly
rising. An unlisted position reads 0x00, its reset contents (R35) (log 8). -/
abbrev Memory := List Host.Cell

/-- `LVL` (10_state R27): the level last driven on each pin driven so far, identifiers strictly rising. A pin not listed
reads the free value `Config.pinResetLevel` (log 4). -/
abbrev Levels := List (PinId × Level)

/-- `SEQ` (10_state R29): idle, or the running command, the index of its next event, and the events it has still to
emit, that one first. -/
inductive Seq where
  | idle
  | running (command : Request) (index : Nat) (todo : List Event)
  deriving DecidableEq, Repr

/-- An input from outside the block (log 1): a command presented and run to completion (30_encoding R88, 20_memory R58);
a command presented and then run one event at a time (10_state R29); the time for one event to pass; the reset input
(70_reset R245). -/
inductive Input where
  | command (r : Request)
  | start (r : Request)
  | advance
  | reset
  deriving DecidableEq, Repr

/-- The state: everything 10_state R20 gives the block (SR and BC are needed by no model by R30: a view of SEQ, log 17), and
the model's own inputs still to come, count of resets and earlier traces. -/
structure State where
  /-- `STATE`, with `PINCLK`, `PINDIO` and `BRIGHT` (R21, R22, R23). -/
  mode : Mode
  /-- `POWER`, true is on (R24). -/
  power : Bool
  /-- `FONT` (R26): the table in force, configuration that nothing writes (41_font R142, R145) (log 6). -/
  font : FontTable
  /-- `gram[0..15]` (R25). -/
  gram : Memory
  /-- `LVL` (R27). -/
  lvl : Levels
  /-- `TRACE`, oldest event first (R28). -/
  trace : List Event
  /-- `SEQ` (R29). -/
  seq : Seq
  /-- The model's own field, not the spec's: what the caller and the reset line will present, oldest first (log 1). -/
  inbox : List Input
  /-- The model's own field, not the spec's: how many reset inputs have been taken. It numbers the draws of
  `PIN_RESET_LEVEL` (R35) (log 4). -/
  resets : Nat
  /-- The model's own field, not the spec's, which no step reads: each TRACE that a reset between commands emptied, oldest
  first. The device keeps its contents over such a reset (20_memory R68), so its view needs the events before it (log 22). -/
  past : List (List Event)
  deriving DecidableEq, Repr

/-- The state right after power-up (10_state R35, 70_reset R245): Uninitialized, POWER on, gram all 0x00, TRACE empty,
SEQ idle, no pin driven yet; FONT is the default table (41_font R142, log 6). The empty inbox, the count of resets and
the earlier traces are the model's own (log 1, log 4, log 22). -/
def State.reset : State :=
  { mode := .uninitialized, power := true, font := defaultFont, gram := [], lvl := [], trace := [], seq := .idle, inbox := []
    resets := 0, past := [] }

/-- Faults: none. "A model's step function for the block is total and has no fault outcome" (60_exceptions R215), so the
type has no constructor and nothing raises one (safe: no claim can lean on a fault). -/
inductive Fault
  deriving DecidableEq, Repr

/-- Why a step can refuse. -/
inductive Refusal where
  /-- Raised by an arm of exec for an instruction without a meaning; no arm is left in this model. Safe: the run stops. -/
  | notModelled (mnemonic : String)
  /-- Raised by step, never by exec, when a WIRE8 request's byte is none of the three wire commands: 30_encoding R87 classes
  it `unknown`, 93_implementation_defined U6 says `refuse` (log 19). Safe: the run stops. -/
  | unknownFirstByte (b : Byte)
  deriving DecidableEq, Repr

end Sys2Proof.Machine
end

