-- ==== Sys2Proof/Machine/Ops.lean ====
section
/-! DEFINITION. The named operations over the mirror, the pin levels, the trace and the mode, and the block's only
entry from outside, the hardware reset. The block takes no exception and has no return from one (60_exceptions R215,
R224, R225). -/

namespace Sys2Proof.Machine

/-- The outcome type of this machine. -/
abbrev Out := Host.Outcome State Fault Refusal

/-! ### The mirror (20_memory R51, 10_state R25) -/

/-- `GRAM_SIZE` (00_scope R6). -/
def gramSize : Nat := 16

/-- `MemRead(addr, 1)`; an unlisted position reads 0x00 (log 8). -/
def memRead : Memory → Nat → Byte
  | [], _ => 0x00#8
  | (k, v) :: rest, a => if k = a then v else memRead rest a

/-- Put a cell where its position belongs among strictly rising positions. -/
def cellInsert (a : Nat) (b : Byte) : Memory → Memory
  | [] => [(a, b)]
  | (k, v) :: rest => if a < k then (a, b) :: (k, v) :: rest else (k, v) :: cellInsert a b rest

/-- The memory without position `a`. -/
def cellErase (m : Memory) (a : Nat) : Memory := m.filter fun c => c.1 ≠ a

/-- `MemWrite(addr, 1, v)` in canonical form: a cell that becomes 0x00 leaves the list. -/
def memWrite (m : Memory) (a : Nat) (b : Byte) : Memory :=
  if b = 0x00#8 then cellErase m a else cellInsert a b (cellErase m a)

/-- A write to the mirror: only positions 0 to 15 exist, anything past them is not mirrored (20_memory R56). -/
def mirrorWrite (m : Memory) (a : Nat) (b : Byte) : Memory :=
  if a < gramSize then memWrite m a b else m

/-- Write successive bytes to successive positions, element 0 first (20_memory R53). -/
def mirrorStore : Memory → Nat → List Byte → Memory
  | m, _, [] => m
  | m, a, b :: bs => mirrorStore (mirrorWrite m a b) (a + 1) bs

/-- The canonical form of the mirror: positions strictly rising, each below 16, no cell that holds 0x00. -/
abbrev Memory.wf (m : Memory) : Prop :=
  m.Pairwise (fun c d => c.1 < d.1) ∧ ∀ c ∈ m, c.1 < gramSize ∧ c.2 ≠ 0x00#8

/-! ### The pin levels (10_state R27) -/

/-- The level last driven on a pin, none if the block has not driven it. -/
def levelRead : Levels → PinId → Option Level
  | [], _ => none
  | (k, v) :: rest, p => if k = p then some v else levelRead rest p

/-- Put a level where its pin belongs among strictly rising identifiers. -/
def levelInsert (p : PinId) (b : Level) : Levels → Levels
  | [] => [(p, b)]
  | (k, v) :: rest => if p.toNat < k.toNat then (p, b) :: (k, v) :: rest else (k, v) :: levelInsert p b rest

/-- `LVL[p] <- b`. -/
def levelWrite (l : Levels) (p : PinId) (b : Level) : Levels :=
  levelInsert p b (l.filter fun c => c.1 ≠ p)

/-- The canonical form of the levels: identifiers strictly rising. -/
abbrev Levels.wf (l : Levels) : Prop := l.Pairwise fun c d => c.1.toNat < d.1.toNat

/-- `LVL[p]`: the level last driven, or the open `PIN_RESET_LEVEL` of this reset's draw (10_state R27, R35). -/
def pinLevel (s : State) (p : PinId) : Level := (levelRead s.lvl p).getD (Config.pinResetLevel s.resets p)

/-! ### Events (40_transport R110) -/

/-- What an event does to the levels: a pin write sets its pin's level, a wait nothing. -/
def driveEvent (l : Levels) : Event → Levels
  | .pin p b => levelWrite l p b
  | .wait => l

/-- `emit(e)`: append to TRACE and, for a pin write, set the level, whether or not it changes. -/
def emit (s : State) (e : Event) : State :=
  { s with trace := s.trace ++ [e], lvl := driveEvent s.lvl e }

/-- Emit a sequence of events in order: `emit` of each (`emitAll_eq_foldl` in Laws/State.lean). -/
def emitAll (s : State) (es : List Event) : State :=
  { s with trace := s.trace ++ es, lvl := es.foldl driveEvent s.lvl }

/-! ### The mode (10_state R21, 42_display R155) -/

/-- The guard of every command but INIT, and of every transport request: while Uninitialized a no-op (42_display R155,
40_transport R125), otherwise the command's own rule. -/
def whenActive (s : State) (k : Driver → State) : Out :=
  match s.mode with
  | .uninitialized => .next s
  | .active d => .next (k d)

/-- Replace the driver's registers; the mode becomes Active. -/
def setDriver (s : State) (d : Driver) : State := { s with mode := .active d }

/-- Whether a command is running: SEQ is not idle (10_state R29). -/
def running (s : State) : Bool := decide (s.seq ≠ .idle)

/-- The reset input (70_reset R245): every register as after power-up, SEQ idle, no event emitted, FONT unchanged (41_font
R145). Between commands TRACE is empty after it and every level is open again, a new draw (10_state R35). A running command
is cut short: the events already emitted stay in TRACE and the pins keep the levels last driven (R245) (log 9). An emptied TRACE is kept aside in `past`: the device
keeps what it held (20_memory R68) (log 22). -/
def hardReset (s : State) : State :=
  { State.reset with
    font := s.font
    lvl := if running s then s.lvl else []
    trace := if running s then s.trace else []
    inbox := s.inbox
    resets := s.resets + 1
    past := if running s then s.past else s.past ++ [s.trace] }

end Sys2Proof.Machine
end

