-- ==== Sys2Proof/Machine/Operands.lean ====
section
/-! DEFINITION. How operands are formed from port bits (30_encoding R93, 00_scope R10, 43_renderers R194). -/

namespace Sys2Proof.Machine

/-- `PAYLOAD_MAX` (00_scope R6, D15). -/
def payloadMax : Nat := 16

/-- `clamp07(v) = max(0, min(7, v))`, on mathematical integers (00_scope R10, 43_renderers R194(a)). -/
def clamp07 (v : Int) : BitVec 3 := BitVec.ofInt 3 (max 0 (min 7 v))

/-- The brightness operand of INIT and SETBRI: `c_a` read as signed, clamped. -/
def brightnessOperand (a : Word) : BitVec 3 := clamp07 a.toInt

/-- The on flag of SETPWR: `c_a != 0`. -/
def onFlag (a : Word) : Bool := a != 0

/-- The start position of WRMEM: `c_a` read as signed, valid iff `0 <= c_a < 16` (20_memory R56). -/
def startPosition (a : Word) : Option (BitVec 4) :=
  if 0 ≤ a.toInt ∧ a.toInt < 16 then some (a.extractLsb' 0 4) else none

/-- A payload element masked to 8 bits: `c_data[k] & 0xFF` (20_memory R57, 43_renderers R194(d)). -/
def maskByte (x : Word) : Byte := x.extractLsb' 0 8

/-- The payload of WRMEM: the first `min(c_len, PAYLOAD_MAX)` lanes, each masked. -/
def payloadBytes (len : BitVec 5) (data : Vector Word 16) : List Byte :=
  (data.toList.take (min len.toNat payloadMax)).map maskByte

/-- The payload of T.ADDRWR: the first `t_len` lanes; for a `t_len` outside the stated 0 to 16 a free value
(40_transport R119, log 11). -/
def transportPayload (len : BitVec 5) (data : Vector Byte 16) : List Byte :=
  if len.toNat ≤ payloadMax then data.toList.take len.toNat else Config.overlongPayload len data

end Sys2Proof.Machine
end

