-- ==== Sys2Proof/Machine/Bus.lean ====
section
/-! DEFINITION. The event sequences of the two-wire bus (40_transport R110 to R120), as lists relative to a driver's pin
binding. -/

namespace Sys2Proof.Machine

/-- `CLK(b)` (R110). -/
def clkEvent (d : Driver) (b : Level) : Event := .pin d.pinclk b

/-- `DIO(b)` (R110). -/
def dioEvent (d : Driver) (b : Level) : Event := .pin d.pindio b

/-- T.START's four events (R113). -/
def startSeq (d : Driver) : List Event := [dioEvent d false, .wait, clkEvent d false, .wait]

/-- T.STOP's six events (R114). -/
def stopSeq (d : Driver) : List Event :=
  [dioEvent d false, .wait, clkEvent d true, .wait, dioEvent d true, .wait]

/-- The six events of one bit: data settled, one clock pulse (R115). -/
def bitSeq (d : Driver) (b : Level) : List Event :=
  [dioEvent d b, .wait, clkEvent d true, .wait, clkEvent d false, .wait]

/-- The bits of a byte in wire order, least significant first (20_memory R52). -/
def wireBits (v : Byte) : List Bool :=
  [v.getLsbD 0, v.getLsbD 1, v.getLsbD 2, v.getLsbD 3, v.getLsbD 4, v.getLsbD 5, v.getLsbD 6, v.getLsbD 7]

/-- T.WBYTE's 48 events (R115). -/
def byteSeq (d : Driver) (v : Byte) : List Event := (wireBits v).flatMap (bitSeq d)

/-- A frame: start, the bytes, stop (30_encoding R81, 40_transport R123). -/
def frameSeq (d : Driver) (bytes : List Byte) : List Event :=
  startSeq d ++ bytes.flatMap (byteSeq d) ++ stopSeq d

/-- T.DATACMD's transaction (R117). -/
def dataCmdSeq (d : Driver) : List Event := frameSeq d [dataCmdByte]

/-- T.DISPCTL's transaction (R118). -/
def dispCtlSeq (d : Driver) (on : Bool) (bri : BitVec 3) : List Event := frameSeq d [dispCtlByte on bri]

/-- T.ADDRWR's frame (R119). -/
def addrWriteSeq (d : Driver) (pos : BitVec 4) (data : List Byte) : List Event := frameSeq d (addrByte pos :: data)

/-- `MEMWR`: the bracketed memory write, three frames (R120). -/
def memWriteSeq (d : Driver) (pos : BitVec 4) (data : List Byte) (on : Bool) (bri : BitVec 3) : List Event :=
  dataCmdSeq d ++ addrWriteSeq d pos data ++ dispCtlSeq d on bri

/-- INIT's two handshake writes, clock first, each followed by a wait iff `HS_WAIT` (42_display R156). -/
def handshakeSeq (hsWait : Bool) (d : Driver) : List Event :=
  let gap := if hsWait then [Event.wait] else []
  clkEvent d false :: gap ++ dioEvent d false :: gap

/-- Emit, on the bound pins, a sequence that depends on the binding; a no-op while Uninitialized (40_transport R125). -/
def transmit (s : State) (seq : Driver → List Event) : Out := whenActive s fun d => emitAll s (seq d)

end Sys2Proof.Machine
end

