-- ==== Sys2Proof/Machine/Controller.lean ====
section
/-! DEFINITION. The Display Controller's commands (42_display R155 to R166; reserved opcodes 30_encoding R90). State is
written first, then the events are emitted (R165). -/

namespace Sys2Proof.Machine

/-- Send the display-control transaction with `DISPBYTE`, from the registers in force (R162). -/
def dispInForce (s : State) (d : Driver) : List Event := dispCtlSeq d s.power d.bright

/-- The channel of every memory write: the mirror first, then the three frames with the power and brightness in force
(R159, R162). -/
def writeMemory (s : State) (d : Driver) (pos : BitVec 4) (payload : List Byte) : State :=
  emitAll { s with gram := mirrorStore s.gram pos.toNat payload } (memWriteSeq d pos payload s.power d.bright)

/-- `refresh()`: write the mirror's first four bytes back through `writeMemory` (R161). -/
def refreshDigits (s : State) (d : Driver) : State :=
  writeMemory s d 0 [memRead s.gram 0, memRead s.gram 1, memRead s.gram 2, memRead s.gram 3]

/-- INIT (R156, R36), in either STATE: everything replaced, gram zeroed, then the handshake on the new pins. -/
def execInit (clk dio : PinId) (a : Word) (s : State) : Out :=
  let d : Driver := { pinclk := clk, pindio := dio, bright := brightnessOperand a }
  .next (emitAll { s with mode := .active d, power := true, gram := [] }
    (handshakeSeq Config.hsWait d ++ dataCmdSeq d ++ dispCtlSeq d true d.bright))

/-- SETBRI (R157). -/
def execSetbri (a : Word) (s : State) : Out :=
  whenActive s fun d =>
    let d' := { d with bright := brightnessOperand a }
    emitAll (setDriver s d') (dataCmdSeq d' ++ dispInForce s d')

/-- SETPWR (R158). -/
def execSetpwr (a : Word) (s : State) : Out :=
  whenActive s fun d =>
    let s' := { s with power := onFlag a }
    emitAll s' (dispInForce s' d)

/-- WRMEM (R159): a start position outside 0 to 15 is a silent no-op. -/
def execWrmem (a : Word) (len : BitVec 5) (data : Vector Word 16) (s : State) : Out :=
  whenActive s fun d =>
    match startPosition a with
    | none => s
    | some pos => writeMemory s d pos (payloadBytes len data)

/-- CLEAR (R160). -/
def execClear (s : State) : Out := whenActive s fun d => writeMemory s d 0 [0x00#8, 0x00#8, 0x00#8, 0x00#8]

/-- REFRESH (R161). -/
def execRefresh (s : State) : Out := whenActive s fun d => refreshDigits s d

/-- A reserved CPORT opcode completes as a no-op, in either STATE (R90). -/
def execCReserved (_low : BitVec 3) (s : State) : Out := .next s

end Sys2Proof.Machine
end

