-- ==== Sys2Proof/Machine/Renderers.lean ====
section
/-! DEFINITION. The numeric renderers SHOWINT and SHOWFLT1 (43_renderers R185 to R198). -/

namespace Sys2Proof.Machine

/-- `first4` (R190): the leftmost four. -/
def first4 {α : Type} (x : List α) : List α := x.take 4

/-- `last4` (R190): the rightmost four. -/
def last4 {α : Type} (x : List α) : List α := x.drop (x.length - 4)

/-- `padleft4` (R190): blank bytes 0x00 on the left, up to four entries; never shortens. -/
def padleft4 (x : List Byte) : List Byte := List.replicate (4 - x.length) 0x00#8 ++ x

/-- Overlay the point on the last segment; an empty list first gets the placeholder 0x00 (R189 step 4, R196). -/
def pointOnLast : List Byte → List Byte
  | [] => [withPoint 0x00#8]
  | [p] => [withPoint p]
  | p :: q :: rest => p :: pointOnLast (q :: rest)

/-- The four segments SHOWINT stores for `n` (R188). -/
def intSegments (t : FontTable) (n : Int) : List Byte := padleft4 (fontMap t (first4 (decstr n)))

/-- The integer-part string of SHOWFLT1: the sign is that of `n10`, not of the quotient (R189, R191). -/
def tenthsString (n10 : Int) : List Char8 :=
  (if n10 < 0 then [minusCode] else []) ++ decstr (n10.tdiv 10).natAbs

/-- The segments of SHOWFLT1 before padding: the integer part with the point on its last character, then the fraction
digit (R189). -/
def tenthsSegments (t : FontTable) (n10 : Int) : List Byte :=
  pointOnLast (fontMap t (tenthsString n10)) ++ [fontLookup t (digitCode (n10.tmod 10).natAbs)]

/-- The four segments SHOWFLT1 stores for `n10` tenths (R189). -/
def fltSegments (t : FontTable) (n10 : Int) : List Byte := last4 (padleft4 (tenthsSegments t n10))

/-- Store four segments at positions 0 to 3, then refresh (R188, R189, R197). -/
def showSegments (s : State) (d : Driver) (segs : List Byte) : State :=
  refreshDigits { s with gram := mirrorStore s.gram 0 segs } d

/-- SHOWINT (R188), with the font table in force (41_font R142). -/
def execShowint (a : Word) (s : State) : Out :=
  whenActive s fun d => showSegments s d (intSegments s.font a.toInt)

/-- SHOWFLT1 (R189), with the font table in force (41_font R142). -/
def execShowflt1 (a : Word) (s : State) : Out :=
  whenActive s fun d => showSegments s d (fltSegments s.font a.toInt)

end Sys2Proof.Machine
end

