-- ==== Sys2Proof/Machine/Transport.lean ====
section
/-! DEFINITION. The Protocol Transport's requests (40_transport R111 to R119, R125, R126; reserved opcodes 30_encoding
R92). -/

namespace Sys2Proof.Machine

/-- T.SETCLK (R111): one event, no wait. -/
def execTSetclk (lvl : Level) (s : State) : Out := transmit s fun d => [clkEvent d lvl]

/-- T.SETDAT (R112): one event, no wait. -/
def execTSetdat (lvl : Level) (s : State) : Out := transmit s fun d => [dioEvent d lvl]

/-- T.START (R113). -/
def execTStart (s : State) : Out := transmit s startSeq

/-- T.STOP (R114). -/
def execTStop (s : State) : Out := transmit s stopSeq

/-- T.WBYTE (R115). -/
def execTWbyte (byte : Byte) (s : State) : Out := transmit s fun d => byteSeq d byte

/-- T.DATACMD (R117). -/
def execTDatacmd (s : State) : Out := transmit s dataCmdSeq

/-- T.DISPCTL (R118). -/
def execTDispctl (on : Bool) (bri : BitVec 3) (s : State) : Out := transmit s fun d => dispCtlSeq d on bri

/-- T.ADDRWR (R119). -/
def execTAddrwr (pos : BitVec 4) (len : BitVec 5) (data : Vector Byte 16) (s : State) : Out :=
  transmit s fun d => addrWriteSeq d pos (transportPayload len data)

/-- A reserved TPORT opcode completes as a no-op, in either STATE (R92). -/
def execTReserved (_low : BitVec 3) (s : State) : Out := .next s

end Sys2Proof.Machine
end

