-- ==== Sys2Proof/Machine/Wire.lean ====
section
/-! DEFINITION. The wire commands W.DATA, W.ADDR, W.DISP (30_encoding R82 to R84): the block serialises the command byte
into the fixed 48 events of T.WBYTE (R86). What the byte tells the device is read off TRACE (Machine/Device.lean): the
device is not state of the block (10_state R31) (log 10, log 13). -/

namespace Sys2Proof.Machine

/-- W.DATA (R82): the byte 0x40. -/
def execWData (s : State) : Out := transmit s fun d => byteSeq d dataCmdByte

/-- W.ADDR (R83): the byte `0xC0 | pos`. -/
def execWAddr (pos : BitVec 4) (s : State) : Out := transmit s fun d => byteSeq d (addrByte pos)

/-- W.DISP (R84): the byte `0x80 | (0x08 if on) | bri`. -/
def execWDisp (on : Bool) (bri : BitVec 3) (s : State) : Out := transmit s fun d => byteSeq d (dispCtlByte on bri)

end Sys2Proof.Machine
end

