-- ==== Sys2Proof/Machine/Dispatch.lean ====
section
/-! DEFINITION. exec: one arm per row of the opcode table. -/

namespace Sys2Proof.Machine

def exec (i : Instr) (s : State) : Host.Outcome State Fault Refusal :=
  match i with
  -- wire layer (30_encoding R82 to R84)
  | .wData => Sys2Proof.Machine.execWData s
  | .wAddr pos => Sys2Proof.Machine.execWAddr pos s
  | .wDisp on bri => Sys2Proof.Machine.execWDisp on bri s
  -- transport layer (40_transport)
  | .tSetclk lvl => Sys2Proof.Machine.execTSetclk lvl s
  | .tSetdat lvl => Sys2Proof.Machine.execTSetdat lvl s
  | .tStart => Sys2Proof.Machine.execTStart s
  | .tStop => Sys2Proof.Machine.execTStop s
  | .tWbyte byte => Sys2Proof.Machine.execTWbyte byte s
  | .tDatacmd => Sys2Proof.Machine.execTDatacmd s
  | .tDispctl on bri => Sys2Proof.Machine.execTDispctl on bri s
  | .tAddrwr pos len data => Sys2Proof.Machine.execTAddrwr pos len data s
  | .tReserved low => Sys2Proof.Machine.execTReserved low s
  -- command layer (42_display_controller, 43_renderers)
  | .init clk dio a => Sys2Proof.Machine.execInit clk dio a s
  | .setbri a => Sys2Proof.Machine.execSetbri a s
  | .setpwr a => Sys2Proof.Machine.execSetpwr a s
  | .wrmem a len data => Sys2Proof.Machine.execWrmem a len data s
  | .clear => Sys2Proof.Machine.execClear s
  | .refresh => Sys2Proof.Machine.execRefresh s
  | .showint a => Sys2Proof.Machine.execShowint a s
  | .showflt1 a => Sys2Proof.Machine.execShowflt1 a s
  | .cReserved low => Sys2Proof.Machine.execCReserved low s

end Sys2Proof.Machine
end

