-- ==== Sys2Proof/Machine/Sequencer.lean ====
section
/-! DEFINITION. The sequencer: how requests and the reset input reach the block (30_encoding R88, R91; 10_state R29;
70_reset R245) (log 1). -/

namespace Sys2Proof.Machine

/-- `c_ready` (and `t_ready`): the block is idle (30_encoding R88). -/
def ready (s : State) : Bool := decide (s.seq = .idle)

/-- Take a request and run it to completion; a wire byte that is no command is refused by name. -/
def runRequest (r : Request) (s : State) : Out :=
  match decode r with
  | .instr i => exec i s
  | .unknownFirstByte b => .refused (.unknownFirstByte b)

/-- The events a completed command appended to TRACE. -/
def newEvents (before after : State) : List Event := after.trace.drop before.trace.length

/-- SEQ just before the event `index` of a command with `todo` left: idle after the last (10_state R29). -/
def seqAt (r : Request) (index : Nat) : List Event → Seq
  | [] => .idle
  | e :: todo => .running r index (e :: todo)

/-- Take a request and stop before its first event: the registers as the completed command leaves them (state first, then
events: 42_display R165), TRACE and LVL as before, SEQ at index 0. -/
def startRequest (r : Request) (s : State) : Out :=
  match runRequest r s with
  | .next t => .next { t with trace := s.trace, lvl := s.lvl, seq := seqAt r 0 (newEvents s t) }
  | .fault f => .fault f
  | .refused x => .refused x

/-- Emit the running command's next event; nothing to do when idle. -/
def emitNext (s : State) : State :=
  match s.seq with
  | .idle => s
  | .running _ _ [] => { s with seq := .idle }
  | .running r index (e :: todo) => { emit s e with seq := seqAt r (index + 1) todo }

/-- One step of the whole machine: the next input, if the block can take it. A request is taken only when the block is
ready; while a command runs, the block emits its next event and the request waits. A reset is taken at once. -/
def serve (s : State) : Out :=
  match s.inbox with
  | [] => .next (emitNext s)
  | .reset :: rest => .next (hardReset { s with inbox := rest })
  | .advance :: rest => .next (emitNext { s with inbox := rest })
  | .command r :: rest => if ready s then runRequest r { s with inbox := rest } else .next (emitNext s)
  | .start r :: rest => if ready s then startRequest r { s with inbox := rest } else .next (emitNext s)

/-- Put a request at the head of the inputs of an idle block. -/
def presentNext (r : Request) (s : State) : State := { s with seq := .idle, inbox := .command r :: s.inbox }

end Sys2Proof.Machine
end

