-- ==== Sys2Proof/Machine/Step.lean ====
section
/-! DEFINITION. One step of the machine, and the host's way to place an instruction. -/

namespace Sys2Proof.Machine

/-- One step: the next input from outside is served (30_encoding R88, 10_state R29, 70_reset R245). An idle block with no
input waits (10_state R35). -/
def step (s : State) : Host.Outcome State Fault Refusal := serve s

/-- `s` with the opcode-table word presented as the very next command to an idle block (log 1, log 2). -/
def State.withFetchWord (s : State) (nbits w : Nat) : State := presentNext (unpack (w % 2 ^ nbits)) s

end Sys2Proof.Machine
end

