-- ==== Sys2Proof/Machine/FrontEnd.lean ====
section
/-! DEFINITION. The host side of the command port (43_renderers R186, R187, R193; 30_encoding R95): how D00's calls become
commands and transport requests. It is outside the block (00_scope R4(b), R4(f)); the step does not use it (log 14). -/

namespace Sys2Proof.Machine

/-- A number of the host: an exact fraction `num / den`, or not finite. A zero denominator is no number. -/
inductive HostNumber where
  | fraction (num : Int) (den : Nat)
  | notFinite
  deriving DecidableEq, Repr

/-- `trunc(num/den)`, toward zero (00_scope R10). -/
def truncFrac (num : Int) (den : Nat) : Int := num.tdiv den

/-- `round_haz(num/den)`, half away from zero (00_scope R10): `trunc(q + 1/2)` for `q >= 0`, `-trunc(-q + 1/2)`
otherwise. -/
def roundHazFrac (num : Int) (den : Nat) : Int :=
  if 0 ≤ num then (2 * num + den).tdiv (2 * den) else -((2 * (-num) + den).tdiv (2 * den))

/-- A mathematical integer as a port operand; none outside -2^31 to 2^31 - 1 (R193, D5). -/
def toOperand (v : Int) : Option Word :=
  if -2 ^ 31 ≤ v ∧ v < 2 ^ 31 then some (BitVec.ofInt 32 v) else none

/-- The calls of 30_encoding R95, the caller's eight and the Transport's five. The brightness of `initCall` may be left out. -/
inductive Call where
  | initCall (clk dio : PinId) (brightness : Option Int)
  | setBrightness (v : Int)
  | setPower (on : Bool)
  | clear
  | showInteger (num : HostNumber)
  | showFloat1 (num : HostNumber)
  | writeMemory (bytes : List Int) (startPos : Int)
  | refresh
  | setClock (level : Level)
  | setData (level : Level)
  | startFrame
  | stopFrame
  | writeByte (value : Int)
  deriving DecidableEq, Repr

/-- `BRIGHT_DEFAULT`, supplied by the binding layer (00_scope R6, 30_encoding R95, D34). -/
def brightDefault : Int := 5

/-- SHOWINT's operand: `trunc(num)` (R186). -/
def showIntegerOperand : HostNumber → Option Word
  | .fraction num den => if den = 0 then none else toOperand (truncFrac num den)
  | .notFinite => none

/-- SHOWFLT1's operand: `round_haz(num * 10)` (R187). -/
def showFloat1Operand : HostNumber → Option Word
  | .fraction num den => if den = 0 then none else toOperand (roundHazFrac (num * 10) den)
  | .notFinite => none

/-- The sixteen payload lanes of a list of elements, the rest zero. -/
def payloadLanes (bytes : List Word) : Vector Word 16 := Vector.ofFn fun k => bytes.getD k.val 0

/-- The payload operands of `writeMemory`: at most `PAYLOAD_MAX` elements (D15), each an integer operand. -/
def writeMemoryCommand (bytes : List Int) (startPos : Int) : Option Instr :=
  match toOperand startPos, (bytes.take 16).mapM toOperand with
  | some a, some elems => some (.wrmem a (BitVec.ofNat 5 elems.length) (payloadLanes elems))
  | _, _ => none

/-- T.WBYTE's operand: a wider value is used as `value & 0xFF` (40_transport R115, 20_memory R57). -/
def writeByteOperand (value : Int) : Byte := BitVec.ofInt 8 value

/-- The instruction a call forms (30_encoding R95); none where the front end refuses (R193). -/
def formCommand : Call → Option Instr
  | .initCall clk dio brightness => (toOperand (brightness.getD brightDefault)).map fun a => .init clk dio a
  | .setBrightness v => (toOperand v).map .setbri
  | .setPower on => some (.setpwr (if on then 1 else 0))
  | .clear => some .clear
  | .showInteger num => (showIntegerOperand num).map .showint
  | .showFloat1 num => (showFloat1Operand num).map .showflt1
  | .writeMemory bytes startPos => writeMemoryCommand bytes startPos
  | .refresh => some .refresh
  | .setClock level => some (.tSetclk level)
  | .setData level => some (.tSetdat level)
  | .startFrame => some .tStart
  | .stopFrame => some .tStop
  | .writeByte value => some (.tWbyte (writeByteOperand value))

end Sys2Proof.Machine
end

