-- ==== Sys2Proof/Machine/Observers.lean ====
section
/-! DEFINITION. The observers of TRACE (40_transport R121 to R124, R251): levels, sampled bits, the structural frame
decoder, spacing. Nothing of the step reads them. -/

namespace Sys2Proof.Machine

/-! ### Levels and counts -/

/-- The level last driven on a pin, after one more event. -/
def lastLevel (p : PinId) (l : Option Level) : Event → Option Level
  | .pin q b => if q = p then some b else l
  | .wait => l

/-- The last level a list of events drives on a pin, none if it drives none (10_state R27). -/
def lastDriven (p : PinId) (es : List Event) : Option Level := es.foldl (lastLevel p) none

/-- Whether an event is a pin write. -/
def Event.isPinWrite : Event → Bool
  | .pin _ _ => true
  | .wait => false

/-- The number of pin writes among events (R124). -/
def pinWrites (es : List Event) : Nat := es.countP Event.isPinWrite

/-- The number of waits among events (R124). -/
def waits (es : List Event) : Nat := es.countP fun e => !e.isPinWrite

/-- Every pin write is followed by a wait (70_reset R251). -/
def spaced : List Event → Bool
  | [] => true
  | .wait :: rest => spaced rest
  | .pin _ _ :: .wait :: rest => spaced rest
  | .pin _ _ :: _ => false

/-! ### The sampling observer (R122) -/

/-- The levels the sampler knows, clock and data. -/
structure Sampler where
  clock : Option Level
  data : Option Level
  deriving DecidableEq, Repr

/-- The sampler after an event. -/
def sampleNext (clk dio : PinId) (m : Sampler) : Event → Sampler
  | .pin p b => { clock := if p = clk then some b else m.clock, data := if p = dio then some b else m.data }
  | .wait => m

/-- The data level sampled at an event: a rising edge is a write of 1 to the clock pin whose level is known to be 0. -/
def sampleAt (clk : PinId) (m : Sampler) : Event → List (Option Level)
  | .pin p b => if p = clk ∧ b = true ∧ m.clock = some false then [m.data] else []
  | .wait => []

/-- `sampled` from given levels; a data level not yet known is sampled as none (log 18). -/
def sampledFrom (clk dio : PinId) : Sampler → List Event → List (Option Level)
  | _, [] => []
  | m, e :: es => sampleAt clk m e ++ sampledFrom clk dio (sampleNext clk dio m e) es

/-- `sampled(trace)`, no level known at first (R122). -/
def sampled (clk dio : PinId) (trace : List Event) : List (Option Level) :=
  sampledFrom clk dio { clock := none, data := none } trace

/-! ### The frame decoder (R123), as an automaton over events -/

/-- Progress inside one bit or stop of an open frame: `D b, W, C 1, W, (C 0, W | D 1, W)`. -/
inductive BitPhase where
  | boundary
  | data (b : Bool)
  | settled (b : Bool)
  | risen (b : Bool)
  | high (b : Bool)
  | fallen (b : Bool)
  | stopping
  deriving DecidableEq, Repr

/-- The decoder's position. `outside k` has matched `k` events of `START = D 0, W, C 0, W`; anything else outside a frame
(the handshake, other pins) is skipped. `inside` holds the bytes and the bits of the open frame so far. `lost`: the events
are no sequence of frames any more. -/
inductive RxPos where
  | outside (matched : Nat)
  | inside (bytes : List Byte) (bits : List Bool) (phase : BitPhase)
  | lost
  deriving DecidableEq, Repr

/-- The decoder: the frames completed so far, oldest first, and its position. -/
structure Rx where
  frames : List (List Byte)
  pos : RxPos
  deriving DecidableEq, Repr

/-- The byte of eight bits received least significant first (20_memory R52). -/
def byteOfBits (bits : List Bool) : Byte := BitVec.ofNat 8 (bits.foldr (fun b n => b.toNat + 2 * n) 0)

/-- A pin event relative to a pair of pins; none is a write to another pin. -/
inductive BusSymbol where
  | clock (b : Level)
  | data (b : Level)
  | gap
  | other
  deriving DecidableEq, Repr

/-- How an event looks on the pair of pins; equal pins show no data writes, so no frame is formed (70_reset R262). -/
def busSymbol (clk dio : PinId) : Event → BusSymbol
  | .pin p b => if p = clk then .clock b else if p = dio then .data b else .other
  | .wait => .gap

/-- One more bit of an open frame; the eighth completes a byte. -/
def pushBit (bytes : List Byte) (bits : List Bool) (b : Bool) : RxPos :=
  if bits.length = 7 then .inside (bytes ++ [byteOfBits (bits ++ [b])]) [] .boundary
  else .inside bytes (bits ++ [b]) .boundary

/-- The decoder after a symbol outside a frame. R123 skips the handshake by its events alone. Where a reset falls between INIT's
handshake and its first frame and INIT is run again with HS_WAIT true, the old `D 0, W` and the new `C 0, W` match a START and
the decoder is lost, though no frame was open: the spec does not say how such a trace parses, and the model's choice is to
leave it so (log 24). -/
def rxOutside (matched : Nat) (y : BusSymbol) : RxPos :=
  match matched, y with
  | 1, .gap => .outside 2
  | 2, .clock false => .outside 3
  | 3, .gap => .inside [] [] .boundary
  | _, .data false => .outside 1
  | _, _ => .outside 0

/-- The decoder after a symbol inside a frame. A STOP is accepted only at a byte boundary, where its data write of 1
tells it from a bit. -/
def rxInside (frames : List (List Byte)) (bytes : List Byte) (bits : List Bool) (phase : BitPhase) (y : BusSymbol) :
    Rx :=
  match phase, y with
  | .boundary, .data b => ⟨frames, .inside bytes bits (.data b)⟩
  | .data b, .gap => ⟨frames, .inside bytes bits (.settled b)⟩
  | .settled b, .clock true => ⟨frames, .inside bytes bits (.risen b)⟩
  | .risen b, .gap => ⟨frames, .inside bytes bits (.high b)⟩
  | .high b, .clock false => ⟨frames, .inside bytes bits (.fallen b)⟩
  | .high false, .data true => if bits = [] then ⟨frames, .inside bytes [] .stopping⟩ else ⟨frames, .lost⟩
  | .fallen b, .gap => ⟨frames, pushBit bytes bits b⟩
  | .stopping, .gap => ⟨frames ++ [bytes], .outside 0⟩
  | _, _ => ⟨frames, .lost⟩

/-- The decoder after an event. -/
def rxNext (clk dio : PinId) (r : Rx) (e : Event) : Rx :=
  match r.pos with
  | .outside matched => ⟨r.frames, rxOutside matched (busSymbol clk dio e)⟩
  | .inside bytes bits phase => rxInside r.frames bytes bits phase (busSymbol clk dio e)
  | .lost => r

/-- The decoder before any event. -/
def rxStart : Rx := { frames := [], pos := .outside 0 }

/-- The decoder after a trace. -/
def rxRun (clk dio : PinId) (trace : List Event) : Rx := trace.foldl (rxNext clk dio) rxStart

/-- `frames(trace)` for a pair of pins (R123). -/
def frames (clk dio : PinId) (trace : List Event) : List (List Byte) := (rxRun clk dio trace).frames

/-! ### The shift register and the bit counter (10_state R30), as a view of SEQ (log 17) -/

/-- The data levels of the next `n` bits, if the events begin with `n` bits (R115). -/
def leadingBits : Nat → List Event → Option (List Bool)
  | 0, _ => some []
  | n + 1, .pin _ b :: .wait :: .pin _ true :: .wait :: .pin _ false :: .wait :: rest =>
    (leadingBits n rest).map fun bits => b :: bits
  | _ + 1, _ => none

/-- The byte being shifted, and the index of the bit being driven, when event `k` of a command's events is the next one; none
outside a byte. `skip` events of a byte already passed are skipped first. -/
def shiftingAt : Nat → List Event → Nat → Option (Byte × BitVec 3)
  | _, [], _ => none
  | skip + 1, _ :: es, k => shiftingAt skip es (k - 1)
  | 0, e :: es, k =>
    match leadingBits 8 (e :: es) with
    | some bits => if k < 48 then some (byteOfBits bits, BitVec.ofNat 3 (k / 6)) else shiftingAt 47 es (k - 1)
    | none => if k = 0 then none else shiftingAt 0 es (k - 1)

/-- `SR` and `BC` (R30): the byte a running command is shifting out and the index of its bit; no value between commands, in
a start, a stop or the handshake. -/
def shiftRegisters (s : State) : Option (Byte × BitVec 3) :=
  match s.seq with
  | .idle => none
  | .running _ index todo => shiftingAt 0 (s.trace.drop (s.trace.length - index) ++ todo) index

end Sys2Proof.Machine
end

