-- ==== Sys2Proof/Machine/Device.lean ====
section
/-! DEFINITION. The device as the block addresses it: its data-command register, write pointer, sixteen display bytes and
display-control register (60_exceptions R228, 20_memory R60, R61), computed from TRACE and from the
TRACEs that resets of the block alone emptied (20_memory R68, log 22). The device is not state of the
block; "the device's contents are known to a claim only as a function of TRACE" (10_state R31). Nothing of the step reads
this view. It rests on one general-knowledge premise, G4 of 93_implementation_defined (log 13), and on the model's premises
that the device is never power-cycled alone (log 21) and stands between frames when TRACE begins (log 13). -/

namespace Sys2Proof.Machine

/-- Where a bracketed memory write stands (40_transport R120): nothing open, a data command just taken, an address frame
just taken. -/
inductive Bracket where
  | closed
  | armed
  | pending
  deriving DecidableEq, Repr

/-- The device's registers, so far as the frames tell them. A display position not listed, a pointer or a control value of
none is not known: the events do not tell it (91_not_in_source N9). -/
structure DeviceRegs where
  /-- A data command 0x40 is known to be taken: write mode with auto-increment (R82). -/
  autoIncrement : Bool
  /-- The write pointer (R83); none once it has passed position 15. -/
  pointer : Option (BitVec 4)
  /-- The display bytes known, latest write first. -/
  display : List Host.Cell
  /-- Power and brightness (R84). -/
  control : Option (Bool × BitVec 3)
  bracket : Bracket
  deriving DecidableEq, Repr

/-- A view of the device: its registers, or no meaning (93_implementation_defined U1, U6, U7, U8, U14, U15). -/
inductive DeviceView where
  | regs (r : DeviceRegs)
  | noMeaning
  deriving DecidableEq, Repr

/-- Nothing known yet. -/
def deviceStart : DeviceView :=
  .regs { autoIncrement := false, pointer := none, display := [], control := none, bracket := .closed }

/-- The device's display byte at a position, none if the trace does not tell it. -/
def displayAt (r : DeviceRegs) (pos : Nat) : Option Byte := (r.display.find? fun c => c.1 = pos).map Prod.snd

/-- The data bytes of a frame, element `k` at position `pos + k` (20_memory R53). -/
def displayStore : List Host.Cell → Nat → List Byte → List Host.Cell
  | cells, _, [] => cells
  | cells, a, b :: bs => displayStore ((a, b) :: cells) (a + 1) bs

/-- The pointer after auto-increment; none past position 15 (91_not_in_source N7). -/
def pointerAfter (pos : BitVec 4) (n : Nat) : Option (BitVec 4) :=
  if pos.toNat + n < 16 then some (BitVec.ofNat 4 (pos.toNat + n)) else none

/-- The device after a wire command with the data bytes of its frame (20_memory R60). A memory write counts only when a
data-command frame comes directly before it and a display-control frame directly after it (R253). What the device holds after
a data command or a display control with further bytes in its frame, shapes the block sends only by raw requests (30_encoding
R81), the spec does not say: that the view then has no meaning is the model's choice (log 23). -/
def deviceTake (r : DeviceRegs) (i : Instr) (data : List Byte) : DeviceView :=
  match i, r.bracket, data with
  | .wData, .closed, [] | .wData, .armed, [] => .regs { r with autoIncrement := true, bracket := .armed }
  | .wDisp on bri, _, [] => .regs { r with control := some (on, bri), bracket := .closed }
  | .wAddr pos, .armed, data =>
    if pos.toNat + data.length ≤ 16 then
      .regs { r with pointer := pointerAfter pos data.length, display := displayStore r.display pos.toNat data, bracket := .pending }
    else .noMeaning
  | _, _, _ => .noMeaning

/-- The device after a frame that began without both lines high, as INIT's first one does (70_reset R257): whether it is taken
is not known (U14). A data command leaves everything known before as it was; nothing else has a meaning. -/
def deviceDoubt (r : DeviceRegs) (i : Instr) (data : List Byte) : DeviceView :=
  match i, r.bracket, data with
  | .wData, .closed, [] | .wData, .armed, [] => .regs { r with bracket := .closed }
  | _, _, _ => .noMeaning

/-- The device after a frame: its first byte is the command (30_encoding R81); `fromIdle` says that the frame began with both
lines high. A frame of no byte, possible by raw requests only, has no meaning: the model's choice (log 23). -/
def deviceFrame (v : DeviceView) (fromIdle : Bool) (frame : List Byte) : DeviceView :=
  match v, frame with
  | .regs r, first :: data =>
    match decodeWire first with
    | .instr i => if fromIdle then deviceTake r i data else deviceDoubt r i data
    | .unknownFirstByte _ => .noMeaning
  | _, _ => .noMeaning

/-- What an observer on a pair of pins holds: the frame decoder, the levels known, whether the frame being opened or open
began with both lines high, and the device after the frames completed. -/
structure DeviceRx where
  rx : Rx
  levels : Sampler
  fromIdle : Bool
  device : DeviceView
  deriving DecidableEq, Repr

/-- The observer before any event: no level known. -/
def deviceRxStart : DeviceRx :=
  { rx := rxStart, levels := { clock := none, data := none }, fromIdle := false, device := deviceStart }

/-- Outside a frame, does a symbol break the framing of 70_reset R252? A line that rises there, or may rise, is a byte or a
stop with no start before it; a start that began with both lines high and does not go on is a frame cut short (U15). A start
that began otherwise and is cut in its first three events is not counted as one: its events are those of INIT's handshake, or
of the start after it, and no line has made the edge R257 speaks of. That is the model's choice (log 24). -/
def breaksFraming (m : DeviceRx) (y : BusSymbol) : Bool :=
  match m.rx.pos with
  | .outside matched =>
    decide (y = .clock true ∧ m.levels.clock ≠ some true) || decide (y = .data true ∧ m.levels.data ≠ some true) ||
      (m.fromIdle && decide (matched ≠ 0 ∧ (rxOutside matched y = .outside 0 ∨ rxOutside matched y = .outside 1)))
  | .inside _ _ _ | .lost => false

/-- Whether the frame in hand began with both lines high: decided anew at each data write of 0 outside a frame, the first
event of a start (40_transport R113). -/
def beginsFromIdle (m : DeviceRx) (y : BusSymbol) : Bool :=
  match m.rx.pos with
  | .outside _ =>
    if y = .data false then decide (m.levels.clock = some true ∧ m.levels.data = some true) else m.fromIdle
  | .inside _ _ _ | .lost => m.fromIdle

/-- The observer after an event: a completed frame is given to the device. -/
def deviceNext (clk dio : PinId) (m : DeviceRx) (e : Event) : DeviceRx :=
  let rx := rxNext clk dio m.rx e
  { rx := rx
    levels := sampleNext clk dio m.levels e
    fromIdle := beginsFromIdle m (busSymbol clk dio e)
    device := if breaksFraming m (busSymbol clk dio e) then .noMeaning
      else (rx.frames.drop m.rx.frames.length).foldl (fun v f => deviceFrame v m.fromIdle f) m.device }

/-- The observer after events. -/
def deviceRun (clk dio : PinId) (m : DeviceRx) (es : List Event) : DeviceRx := es.foldl (deviceNext clk dio) m

/-- The observer over a reset of the block between commands: the device keeps what it holds (20_memory R68, 70_reset R259), the
levels are open again (10_state R35), and a frame then open is cut short (U15). -/
def overReset (m : DeviceRx) : DeviceRx :=
  { deviceRxStart with device := if m.rx.pos = .outside 0 then m.device else .noMeaning }

/-- The observer after the earlier traces, each ended by such a reset (log 22). -/
def deviceBefore (clk dio : PinId) (past : List (List Event)) : DeviceRx :=
  past.foldl (fun m trace => overReset (deviceRun clk dio m trace)) deviceRxStart

/-- The observer of a state: the earlier traces, then TRACE. -/
def deviceRx (clk dio : PinId) (s : State) : DeviceRx := deviceRun clk dio (deviceBefore clk dio s.past) s.trace

/-- What the device holds, where the trace stands between frames with no memory write still to be closed (R253, U1). -/
def settled (m : DeviceRx) : DeviceView :=
  match m.rx.pos, m.device with
  | .outside 0, .regs r => if r.bracket = .pending then .noMeaning else .regs r
  | _, _ => .noMeaning

/-- The device on a pair of pins, as TRACE and the traces before it tell it. It has no meaning when the pins are equal (U8),
when the events are no sequence of frames (R252, U15), after an address frame until its display-control frame (R253, U1), and
part-way through a frame, cut by a reset or not: what the device shows there is not said (20_memory R58), and that the view
then has no meaning is the model's choice (log 13). It presumes that the device alone is never power-cycled (70_reset R259,
20_memory R61(c)) (log 21). -/
def deviceView (clk dio : PinId) (s : State) : DeviceView :=
  if clk = dio then .noMeaning else settled (deviceRx clk dio s)

end Sys2Proof.Machine
end

