-- ==== Sys2Proof/Machine/Flags.lean ====
section
/-! DEFINITION. The status values and the silently handled conditions. The block has no condition codes and no
arithmetic flags (10_state R33, 40_transport R126): its two one-bit values are STATE and POWER. The tags of R219 are names
for lemmas, "not hardware". -/

namespace Sys2Proof.Machine

/-- The driver of an Active state. -/
def Mode.driver : Mode → Option Driver
  | .uninitialized => none
  | .active d => some d

/-- `STATE` as its one bit (10_state R21): 1 is Active. -/
def stateBit (s : State) : Bool := s.mode.driver.isSome

/-- `DISPBYTE = 0x80 | (POWER << 3) | BRIGHT` (42_display R162). -/
def dispByte (s : State) (d : Driver) : Byte := dispCtlByte s.power d.bright

/-- The causes of a silent no-op (60_exceptions R216), named as R219 suggests. -/
inductive NoopCause where
  | noopUninit
  | noopBadPos
  | noopReserved
  deriving DecidableEq, Repr

/-- The complete list of causes of R216, in the order of checks of R223: the Uninitialized guard first (not for INIT),
then WRMEM's position range; a reserved opcode is a no-op in either STATE. The wire layer has the guard of the pins it
drives (log 10). -/
def noopCause (i : Instr) (s : State) : Option NoopCause :=
  let guard (rest : Option NoopCause) : Option NoopCause :=
    match s.mode with
    | .uninitialized => some .noopUninit
    | .active _ => rest
  match i with
  | .cReserved _ | .tReserved _ => some .noopReserved
  | .init _ _ _ => none
  | .wrmem a _ _ => guard (if (startPosition a).isNone then some .noopBadPos else none)
  | .wData | .wAddr _ | .wDisp _ _ | .tSetclk _ | .tSetdat _ | .tStart | .tStop | .tWbyte _ | .tDatacmd
  | .tDispctl _ _ | .tAddrwr _ _ _ | .setbri _ | .setpwr _ | .clear | .refresh | .showint _ | .showflt1 _ => guard none

end Sys2Proof.Machine
end

