-- ==== Sys2Proof/Safety.lean ====
section
/-! DEFINITION. The terms claims use: the invariant of every step, the idle bus, and what a command appends. -/

namespace Sys2Proof.Machine

/-- The levels held agree with the trace: `LVL[p]` is the level the last write to `p` drove (10_state R27). -/
def levelsAgree (s : State) : Prop := ∀ p, levelRead s.lvl p = lastDriven p s.trace

/-- SEQ is idle or has an event still to emit: it "returns to `idle` after the last event" (10_state R29). -/
def seqBusy (s : State) : Prop := ∀ r index todo, s.seq = .running r index todo → todo ≠ []

/-- The invariant of every step: both stores canonical, the levels those of the trace, SEQ in its form, the font table one
that 41_font R142 admits. -/
def Inv (s : State) : Prop := s.gram.wf ∧ s.lvl.wf ∧ levelsAgree s ∧ seqBusy s ∧ s.font.admissible = true

/-- The idle state of the bus: both bound pins high (40_transport R121). -/
def idleHigh (s : State) : Prop :=
  ∀ d, s.mode = .active d → pinLevel s d.pinclk = true ∧ pinLevel s d.pindio = true

/-- A pair of pins between commands: the trace left both high, the idle state of the bus (40_transport R121), and the device
on them has a meaning. -/
def linkClean (clk dio : PinId) (s : State) : Prop :=
  lastDriven clk s.trace = some true ∧ lastDriven dio s.trace = some true ∧ ∃ r, deviceView clk dio s = .regs r

/-- Whether an instruction is a command of the caller (CPORT). -/
def isCommand (i : Instr) : Bool := decide (i.port = .cport)

/-- The fields no instruction touches: FONT, SEQ, the inputs to come, the count of resets and the earlier traces. -/
def keepsControl (s t : State) : Prop :=
  t.font = s.font ∧ t.seq = s.seq ∧ t.inbox = s.inbox ∧ t.resets = s.resets ∧ t.past = s.past

/-- The registers are those of the state before, every position of the mirror reads as before, and so do the fields no
instruction touches. -/
def keepsRegisters (s t : State) : Prop :=
  t.mode = s.mode ∧ t.power = s.power ∧ (∀ a, memRead t.gram a = memRead s.gram a) ∧ keepsControl s t

/-- A step from `s` to `t` emitted exactly these events, in this order, and each pin stands at the level they last drive it
to, a pin they do not drive as before (40_transport R110). -/
def emits (s t : State) (es : List Event) : Prop :=
  t.trace = s.trace ++ es ∧ ∀ p, levelRead t.lvl p = (lastDriven p es).or (levelRead s.lvl p)

/-- The four digit positions hold these bytes and every other position of the mirror reads as before (43_renderers R197). -/
def digitsAre (s t : State) (segs : List Byte) : Prop :=
  segs.length = 4 ∧ (∀ k b, segs[k]? = some b → memRead t.gram k = b) ∧
    ∀ a, 4 ≤ a → memRead t.gram a = memRead s.gram a

/-- `n` steps of the machine. -/
def steps (n : Nat) (s : State) : Host.Outcome State Fault Refusal := Sys2Proof.core.run n s

end Sys2Proof.Machine
end

