-- ==== Sys2Proof/Certificates/Slice0/Obligations.lean ====
section
/-! DEFINITION. The statements for the provers. Each docstring names the rules of spec/ it formalises. -/

open Sys2Proof Sys2Proof.Machine

/-! ### Encoding -/

/-- Decode and encode agree, on the ports and on the packed form: every operand of every instruction comes back
(30_encoding R82 to R84, R89, R91; the packed form is the model's, log 2). -/
def Obligations.DecodeEncodeRoundTrip : Prop :=
  ∀ i : Instr, decode (encode i) = .instr i ∧ decodeWord (encodeWord i) = .instr i

/-- The first byte of a frame, every value: 0x40, 0xC0 to 0xCF, 0x80 to 0x87, 0x88 to 0x8F, and nothing else (20_memory R60,
30_encoding R82, R83, R84, R87). -/
def Obligations.WireBytesClassified : Prop :=
  ∀ b : Byte, decodeWire b =
    if b.toNat = 0x40 then .instr .wData
    else if 0xC0 ≤ b.toNat ∧ b.toNat ≤ 0xCF then .instr (.wAddr (BitVec.ofNat 4 (b.toNat - 0xC0)))
    else if 0x80 ≤ b.toNat ∧ b.toNat ≤ 0x87 then .instr (.wDisp false (BitVec.ofNat 3 (b.toNat - 0x80)))
    else if 0x88 ≤ b.toNat ∧ b.toNat ≤ 0x8F then .instr (.wDisp true (BitVec.ofNat 3 (b.toNat - 0x88)))
    else .unknownFirstByte b

/-- Words written out from the encodings: a wire command, a transport request, a command, a reserved opcode (R82, R89, R90,
R91). -/
def Obligations.SampleWordsDecode : Prop :=
  decodeWire 0b11000011#8 = .instr (.wAddr 3) ∧ decodeWire 0b10001011#8 = .instr (.wDisp true 3) ∧
  decodeT { tIdle 0b0100#4 with byte := 0xA5 } = .tWbyte 0xA5 ∧
  decodeC { cIdle 0b0110#4 with a := 1234 } = .showint 1234 ∧ decodeC (cIdle 0b1010#4) = .cReserved 2

/-- Every bundle on either port is an instruction of that port, and its opcode bits match exactly one row of the opcode
table, that instruction's (R89, R90, R91, R92: no opcode is left without a meaning). -/
def Obligations.EveryBundleIsOneRow : Prop :=
  (∀ b : CBundle, ∃ i, decode (.cport b) = .instr i ∧ i.port = .cport ∧
    (Request.cport b).matching.map OpRow.mnemonic = [i.mnemonic]) ∧
  ∀ b : TBundle, ∃ i, decode (.tport b) = .instr i ∧ i.port = .tport ∧
    (Request.tport b).matching.map OpRow.mnemonic = [i.mnemonic]

/-- How operands are formed from port bits (30_encoding R93; 00_scope R10, 43_renderers R194(a)(d)(e)). -/
def Obligations.OperandsFormed : Prop :=
  (∀ v : Int, ((clamp07 v).toNat : Int) = max 0 (min 7 v)) ∧
  (∀ a : Word, onFlag a = true ↔ a.toInt ≠ 0) ∧
  (∀ (a : Word) (p : BitVec 4), startPosition a = some p ↔ a.toInt = p.toNat) ∧
  (∀ x : Word, ((maskByte x).toNat : Int) = x.toInt % 256) ∧
  (∀ (len : BitVec 5) (data : Vector Word 16), (payloadBytes len data).length = min len.toNat 16 ∧
    ∀ k x, k < min len.toNat 16 → data.toList[k]? = some x → (payloadBytes len data)[k]? = some (maskByte x)) ∧
  (∀ pos : BitVec 4, (addrByte pos).toNat = 0xC0 + pos.toNat) ∧
  ∀ (on : Bool) (bri : BitVec 3), (dispCtlByte on bri).toNat = 0x80 + 8 * on.toNat + bri.toNat

/-! ### The step -/

/-- An idle block runs the decoded request at the head of the inputs: step is exec of it; around exec the step only takes
the input away, and exec touches neither SEQ nor the inputs nor FONT (30_encoding R88). The list of inputs is the model's, log 1. -/
def Obligations.StepRunsTheDecodedInstruction : Prop :=
  ∀ (s : State) (r : Request) (rest : List Input) (i : Instr),
    s.seq = .idle → s.inbox = .command r :: rest → decode r = .instr i →
      step s = exec i { s with inbox := rest } ∧
      ∀ t, step s = .next t → t.seq = .idle ∧ t.inbox = rest ∧ t.font = s.font ∧ t.resets = s.resets ∧ t.past = s.past

/-- The word the host places is the very next instruction (log 1, log 2). -/
def Obligations.FetchWordRunsNext : Prop :=
  ∀ (s : State) (nbits w : Nat) (i : Instr), decodeTableWord nbits w = some i →
    step (s.withFetchWord nbits w) = exec i { s with seq := .idle }

/-- A block that runs a command takes no request (`c_ready = 0`): it emits the next event of that command, the request waits
(30_encoding R88, 10_state R29; the inputs are the model's, log 1). -/
def Obligations.BusyBlockTakesNoRequest : Prop :=
  ∀ (s : State) (r : Request) (k : Nat) (e : Event) (todo : List Event), s.seq = .running r k (e :: todo) →
    (s.inbox = [] ∨ ∃ q rest, s.inbox = .command q :: rest ∨ s.inbox = .start q :: rest) →
      step s = .next { emit s e with seq := if todo = [] then .idle else .running r (k + 1) todo }

/-- An idle block with no input waits: "the block waits idle for its first command" (10_state R35; log 1). -/
def Obligations.IdleBlockWaits : Prop :=
  ∀ s : State, s.seq = .idle → s.inbox = [] → step s = .next s

/-- Running a command one event at a time ends where running it at once ends, and after `k` events exactly the first `k` are
in TRACE with the registers already written (10_state R29, 00_scope R7, 42_display R165; the order inside a command is the
spec's decision D27, the inputs are the model's, log 1). -/
def Obligations.EventByEventIsTheWholeCommand : Prop :=
  ∀ (s t : State) (r : Request) (i : Instr),
    s.seq = .idle → s.inbox = [.start r] → decode r = .instr i → exec i { s with inbox := [] } = .next t →
      steps (1 + (newEvents s t).length) s = .next t ∧
      ∀ k, k < (newEvents s t).length → ∃ u, steps (1 + k) s = .next u ∧
        u.trace = s.trace ++ (newEvents s t).take k ∧ u.mode = t.mode ∧ u.power = t.power ∧ u.gram = t.gram ∧
        u.font = t.font ∧ u.seq = .running r k ((newEvents s t).drop k)

/-- The reset input (70_reset R245, the spec's decision D23): every register as after power-up, FONT unchanged. Between commands
TRACE is empty after it and every pin level open again (10_state R35); a running command is cut short: its first `k` events
stay in TRACE and the pins keep the levels last driven (R245). Which of the two rules holds when is the model's reading, log 9. -/
def Obligations.ResetCutsACommandShort : Prop :=
  (∀ s : State, ∀ rest, s.inbox = .reset :: rest → ∃ u, step s = .next u ∧
    u.mode = .uninitialized ∧ u.seq = .idle ∧ (∀ a, memRead u.gram a = 0x00#8) ∧ u.power = true ∧
    u.font = s.font ∧ u.inbox = rest ∧
    (s.seq = .idle → u.trace = [] ∧ ∀ p, pinLevel u p = Config.pinResetLevel u.resets p) ∧
    (s.seq ≠ .idle → u.trace = s.trace ∧ ∀ p b, levelRead s.lvl p = some b → pinLevel u p = b)) ∧
  ∀ (s t : State) (r : Request) (i : Instr) (k : Nat), s.seq = .idle →
    s.inbox = .start r :: (List.replicate k .advance ++ [.reset]) → decode r = .instr i →
    exec i { s with inbox := [] } = .next t → k < (newEvents s t).length →
      ∃ u, steps (k + 2) s = .next u ∧ u.mode = .uninitialized ∧ u.seq = .idle ∧ u.power = true ∧
        (∀ a, memRead u.gram a = 0x00#8) ∧ emits s u ((newEvents s t).take k)

/-- No step faults, and a step refuses only a wire byte that is no wire command, presented to an idle block (60_exceptions
R215, 30_encoding R87; the refusal is the model's, log 19). -/
def Obligations.StepsStopOnlyOnUnknownWireBytes : Prop :=
  ∀ s : State, (∀ f, step s ≠ .fault f) ∧
    ∀ x, step s = .refused x ↔ ∃ b rest, x = .unknownFirstByte b ∧ decodeWire b = .unknownFirstByte b ∧
      s.seq = .idle ∧ (s.inbox = .command (.wire b) :: rest ∨ s.inbox = .start (.wire b) :: rest)

/-! ### No exception, no error -/

/-- Every instruction, with every operand, in either STATE, completes and leaves the block as idle as it was (60_exceptions
R215, 43_renderers R198). -/
def Obligations.EveryInstructionCompletes : Prop :=
  ∀ (i : Instr) (s : State), ∃ t, exec i s = .next t ∧ keepsControl s t

/-- The silent no-ops, the complete list of causes: on the two ports an instruction changes nothing exactly when one of them
holds (60_exceptions R216; causes (3) and (4) are the spec's own extension, D21 and D33). -/
def Obligations.SilentNoopsAreExactlyTheListed : Prop :=
  ∀ (i : Instr) (s : State), i.port ≠ .wire8 →
    (exec i s = .next s ↔
      (s.mode = .uninitialized ∧ ∀ clk dio a, i ≠ .init clk dio a) ∨
      (∃ a len data, i = .wrmem a len data ∧ ¬ (0 ≤ a.toInt ∧ a.toInt < 16)) ∨
      ∃ low, i = .cReserved low ∨ i = .tReserved low)

/-- While Uninitialized every command but INIT changes no register, no mirror byte and emits no event (42_display R155). The
reserved opcodes among the commands are no-ops in either STATE. -/
def Obligations.UninitializedIgnoresAllButInit : Prop :=
  ∀ (i : Instr) (s : State), i.port = .cport → s.mode = .uninitialized → (∀ clk dio a, i ≠ .init clk dio a) →
    exec i s = .next s

/-- The reserved opcodes 1000 to 1111 of either port complete with no state change and no event, in either STATE (30_encoding
R90, R92; the spec's own decision D21). -/
def Obligations.ReservedOpcodesAreNoops : Prop :=
  (∀ b : CBundle, 8 ≤ b.op.toNat → ∃ low, decode (.cport b) = .instr (.cReserved low) ∧
    ∀ s, exec (.cReserved low) s = .next s) ∧
  ∀ b : TBundle, 8 ≤ b.op.toNat → ∃ low, decode (.tport b) = .instr (.tReserved low) ∧
    ∀ s, exec (.tReserved low) s = .next s

/-! ### The Protocol Transport -/

/-- T.SETCLK and T.SETDAT: one event, no wait, whatever level the pin has (40_transport R111, R112). -/
def Obligations.SetClockAndDataDriveOnePin : Prop :=
  (∀ b : TBundle, (b.op = 0b0000#4 → decode (.tport b) = .instr (.tSetclk b.lvl)) ∧
    (b.op = 0b0001#4 → decode (.tport b) = .instr (.tSetdat b.lvl))) ∧
  ∀ (s : State) (d : Driver) (lvl : Level), s.mode = .active d →
    (∃ t, exec (.tSetclk lvl) s = .next t ∧ keepsRegisters s t ∧ emits s t [.pin d.pinclk lvl]) ∧
    ∃ t, exec (.tSetdat lvl) s = .next t ∧ keepsRegisters s t ∧ emits s t [.pin d.pindio lvl]

/-- T.START: four events, whatever the levels before; after it clock 0, data 0 (40_transport R113). -/
def Obligations.StartDrivesBothLow : Prop :=
  (∀ b : TBundle, b.op = 0b0010#4 → decode (.tport b) = .instr .tStart) ∧
  ∀ (s : State) (d : Driver), s.mode = .active d →
    ∃ t, exec .tStart s = .next t ∧ keepsRegisters s t ∧
      emits s t [.pin d.pindio false, .wait, .pin d.pinclk false, .wait] ∧
      pinLevel t d.pinclk = false ∧ pinLevel t d.pindio = false

/-- T.STOP: six events; after it clock 1, data 1; from clock 0 its clock write is a rising edge that samples one 0
(40_transport R114). -/
def Obligations.StopRaisesClockThenData : Prop :=
  (∀ b : TBundle, b.op = 0b0011#4 → decode (.tport b) = .instr .tStop) ∧
  ∀ (s : State) (d : Driver), s.mode = .active d →
    ∃ t, exec .tStop s = .next t ∧ keepsRegisters s t ∧
      emits s t [.pin d.pindio false, .wait, .pin d.pinclk true, .wait, .pin d.pindio true, .wait] ∧
      pinLevel t d.pinclk = true ∧ pinLevel t d.pindio = true ∧
      (d.pinclk ≠ d.pindio → ∀ m : Sampler, m.clock = some false →
        sampledFrom d.pinclk d.pindio m (newEvents s t) = [some false])

/-- T.WBYTE: for each bit, least significant first, data, wait, clock 1, wait, clock 0, wait; sampled at the rising edges it
gives the bits in order when the clock is 0 on entry, and loses bit 0 when the clock is 1 on entry; after it clock 0, data
bit 7 (40_transport R115). Equal pins (70_reset R262) are told apart in the data level. -/
def Obligations.WriteByteShiftsLeastSignificantFirst : Prop :=
  (∀ b : TBundle, b.op = 0b0100#4 → decode (.tport b) = .instr (.tWbyte b.byte)) ∧
  ∀ (s : State) (d : Driver) (v : Byte), s.mode = .active d →
    ∃ t, exec (.tWbyte v) s = .next t ∧ keepsRegisters s t ∧
      emits s t ((List.range 8).flatMap fun k =>
        [.pin d.pindio (v.getLsbD k), .wait, .pin d.pinclk true, .wait, .pin d.pinclk false, .wait]) ∧
      pinLevel t d.pinclk = false ∧
      pinLevel t d.pindio = (if d.pinclk = d.pindio then false else v.getLsbD 7) ∧
      (d.pinclk ≠ d.pindio → ∀ m : Sampler,
        (m.clock = some false → sampledFrom d.pinclk d.pindio m (newEvents s t) =
          (List.range 8).map fun k => some (v.getLsbD k)) ∧
        (m.clock = some true → sampledFrom d.pinclk d.pindio m (newEvents s t) =
          ((List.range 8).drop 1).map fun k => some (v.getLsbD k)))

/-- SR and BC, the byte being shifted and the index of its bit: while T.WBYTE runs event by event they are the byte and the
count of bits already shifted; an idle block has none (10_state R30, informative there; the view is the model's, log 17). -/
def Obligations.ShiftRegistersFollowTheByte : Prop :=
  (∀ s : State, s.seq = .idle → shiftRegisters s = none) ∧
  ∀ (s : State) (d : Driver) (r : Request) (v : Byte), s.mode = .active d → s.seq = .idle → s.inbox = [.start r] →
    decode r = .instr (.tWbyte v) →
      ∀ k, k < 48 → ∃ u, steps (1 + k) s = .next u ∧ shiftRegisters u = some (v, BitVec.ofNat 3 (k / 6))

/-- T.DATACMD and T.DISPCTL: one frame of one byte, 58 events (40_transport R117, R118; 30_encoding R82, R84). -/
def Obligations.OneByteTransactions : Prop :=
  (∀ b : TBundle, (b.op = 0b0101#4 → decode (.tport b) = .instr .tDatacmd) ∧
    (b.op = 0b0110#4 → decode (.tport b) = .instr (.tDispctl b.on b.bri))) ∧
  ∀ (s : State) (d : Driver), s.mode = .active d →
    (∃ t, exec .tDatacmd s = .next t ∧ keepsRegisters s t ∧ emits s t (startSeq d ++ byteSeq d 0x40#8 ++ stopSeq d) ∧
      (newEvents s t).length = 58) ∧
    ∀ (on : Bool) (bri : BitVec 3), ∃ t, exec (.tDispctl on bri) s = .next t ∧ keepsRegisters s t ∧
      emits s t (startSeq d ++
        byteSeq d (0x80#8 ||| (BitVec.ofBool on).zeroExtend 8 <<< 3 ||| bri.zeroExtend 8) ++ stopSeq d) ∧
      (newEvents s t).length = 58

/-- T.ADDRWR, every bundle with its opcode: one frame, the address byte and then the `t_len` data bytes; for a `t_len` above the stated 16 the data bytes
are a free value, everything else is as stated (40_transport R119, 30_encoding R91, R98, log 11). -/
def Obligations.AddressWriteFrame : Prop :=
  (∀ b : TBundle, b.op = 0b0111#4 → decode (.tport b) = .instr (.tAddrwr b.pos b.len b.data)) ∧
  ∀ (s : State) (d : Driver) (pos : BitVec 4) (len : BitVec 5) (data : Vector Byte 16), s.mode = .active d →
    ∃ t bytes, exec (.tAddrwr pos len data) s = .next t ∧ keepsRegisters s t ∧
      (len.toNat ≤ 16 → bytes = data.toList.take len.toNat ∧ (newEvents s t).length = 58 + 48 * len.toNat) ∧
      emits s t (startSeq d ++ byteSeq d (0xC0#8 ||| pos.zeroExtend 8) ++ bytes.flatMap (byteSeq d) ++ stopSeq d)

/-- The wire commands are serialised as their byte, 0x40, `0xC0 | pos`, `0x80 | (0x08 if on) | bri`, in the 48 events of one
byte (30_encoding R82, R83, R84, R86; log 10). -/
def Obligations.WireCommandsAreSerialised : Prop :=
  ∀ (s : State) (d : Driver), s.mode = .active d →
    (∃ t, exec .wData s = .next t ∧ keepsRegisters s t ∧ emits s t (byteSeq d 0x40#8) ∧ (newEvents s t).length = 48) ∧
    (∀ pos : BitVec 4, ∃ t, exec (.wAddr pos) s = .next t ∧ keepsRegisters s t ∧
      emits s t (byteSeq d (BitVec.ofNat 8 (0xC0 + pos.toNat))) ∧ (newEvents s t).length = 48) ∧
    ∀ (on : Bool) (bri : BitVec 3), ∃ t, exec (.wDisp on bri) s = .next t ∧ keepsRegisters s t ∧
      emits s t (byteSeq d (BitVec.ofNat 8 (0x80 + 8 * on.toNat + bri.toNat))) ∧ (newEvents s t).length = 48

/-- No transport request and no wire command writes STATE, BRIGHT, POWER, the binding or the mirror, only the bound pins are
driven, and while Uninitialized nothing happens at all (40_transport R126, R125 by the spec's decision D33; for the wire
commands it is the model's inference, log 10). -/
def Obligations.TransportOnlyEmits : Prop :=
  ∀ (i : Instr) (s t : State), i.port ≠ .cport → exec i s = .next t →
    keepsRegisters s t ∧ (s.mode = .uninitialized → t = s) ∧ ∃ es, emits s t es ∧
      ∀ p b, Event.pin p b ∈ es → ∃ d, s.mode = .active d ∧ (p = d.pinclk ∨ p = d.pindio)

/-- The sampled bits of a frame: every byte's bits, least significant first, then one 0 at the stop's clock rise, whatever the
sampler knew before (40_transport R122; the observer is the spec's own helper, D30; log 18). -/
def Obligations.FrameSamplesItsBits : Prop :=
  ∀ (d : Driver) (bytes : List Byte) (m : Sampler), d.pinclk ≠ d.pindio →
    sampledFrom d.pinclk d.pindio m (frameSeq d bytes) =
      (bytes.flatMap fun v => (List.range 8).map fun k => some (v.getLsbD k)) ++ [some false]

/-- The frame decoder reads back any sequence of frames after any trace that stands outside a frame, and stands outside a
frame again (40_transport R123; the decoder is the spec's own helper, D30). -/
def Obligations.FramesAreDecodedBack : Prop :=
  ∀ (d : Driver) (trace : List Event) (fs : List (List Byte)), d.pinclk ≠ d.pindio →
    (rxRun d.pinclk d.pindio trace).pos = .outside 0 →
      frames d.pinclk d.pindio (trace ++ fs.flatMap (frameSeq d)) = frames d.pinclk d.pindio trace ++ fs ∧
      (rxRun d.pinclk d.pindio (trace ++ fs.flatMap (frameSeq d))).pos = .outside 0

/-- The pin levels after each operation, whatever they were before (40_transport R121, derived there). Equal pins (70_reset
R262) are told apart in the data level after a byte; the wire commands' rows are the model's inference, log 10. -/
def Obligations.LevelsAfterEachOperation : Prop :=
  ∀ (i : Instr) (s t : State) (d : Driver), exec i s = .next t → t.mode = .active d → t.trace ≠ s.trace →
    match i with
    | .tSetclk lvl => pinLevel t d.pinclk = lvl
    | .tSetdat lvl => pinLevel t d.pindio = lvl
    | .tStart => pinLevel t d.pinclk = false ∧ pinLevel t d.pindio = false
    | .tWbyte v => pinLevel t d.pinclk = false ∧
        pinLevel t d.pindio = (if d.pinclk = d.pindio then false else v.getLsbD 7)
    | .wData => pinLevel t d.pinclk = false ∧ pinLevel t d.pindio = false
    | .wAddr _ | .wDisp _ _ => pinLevel t d.pinclk = false ∧
        pinLevel t d.pindio = (if d.pinclk = d.pindio then false else true)
    | _ => pinLevel t d.pinclk = true ∧ pinLevel t d.pindio = true

/-- The event counts of every operation (40_transport R124, derived there; the wire commands' row is the model's inference,
log 10; HS_WAIT is open, log 5). -/
def Obligations.EventCounts : Prop :=
  ∀ (i : Instr) (s t : State) (d : Driver), s.mode = .active d → exec i s = .next t →
    let writes := pinWrites (newEvents s t)
    let gaps := waits (newEvents s t)
    (newEvents s t).length = writes + gaps ∧
    match i with
    | .tSetclk _ | .tSetdat _ => writes = 1 ∧ gaps = 0
    | .tStart => writes = 2 ∧ gaps = 2
    | .tStop => writes = 3 ∧ gaps = 3
    | .tWbyte _ | .wData | .wAddr _ | .wDisp _ _ => writes = 24 ∧ gaps = 24
    | .tDatacmd | .tDispctl _ _ => writes = 29 ∧ gaps = 29
    | .tAddrwr _ len _ => gaps = writes ∧ (len.toNat ≤ 16 → writes = 29 + 24 * len.toNat)
    | .init _ _ _ => writes = 60 ∧ gaps = if Config.hsWait then 60 else 58
    | .setbri _ => writes = 58 ∧ gaps = 58
    | .setpwr _ => writes = 29 ∧ gaps = 29
    | .clear | .refresh | .showint _ | .showflt1 _ => writes = 183 ∧ gaps = 183
    | .wrmem a len _ => gaps = writes ∧
        writes = if 0 ≤ a.toInt ∧ a.toInt < 16 then 87 + 24 * min len.toNat 16 else 0
    | .cReserved _ | .tReserved _ => writes = 0 ∧ gaps = 0

/-- Every pin write is followed by a wait, in everything the block emits but the raw T.SETCLK and T.SETDAT; INIT's two
handshake writes are so exactly under the open HS_WAIT (70_reset R251, R260; log 5). -/
def Obligations.EveryPinWriteIsFollowedByAWait : Prop :=
  ∀ (i : Instr) (s t : State), exec i s = .next t →
    match i with
    | .tSetclk _ | .tSetdat _ => True
    | .init clk dio a => ∃ rest, newEvents s t =
        handshakeSeq Config.hsWait { pinclk := clk, pindio := dio, bright := brightnessOperand a } ++ rest ∧
        spaced rest = true ∧ (spaced (newEvents s t) = true ↔ Config.hsWait = true)
    | _ => spaced (newEvents s t) = true

/-! ### The Display Controller -/

/-- INIT, in either STATE: the binding, the clamped brightness, power on, the mirror zeroed; then the handshake, clock first,
each write followed by a wait iff HS_WAIT, then `F[0x40]` and `F[0x88 | BRIGHT]` on the new pins (42_display R156; clock first
is the spec's own decision D8, HS_WAIT is its open parameter D9, log 5). -/
def Obligations.InitReplacesTheDriver : Prop :=
  (∀ b : CBundle, b.op = 0b0000#4 → decode (.cport b) = .instr (.init b.clk b.dio b.a)) ∧
  ∀ (s : State) (clk dio : PinId) (a : Word), ∃ t d, exec (.init clk dio a) s = .next t ∧
    t.mode = .active d ∧ d.pinclk = clk ∧ d.pindio = dio ∧ (d.bright.toNat : Int) = max 0 (min 7 a.toInt) ∧
    t.power = true ∧ (∀ p, memRead t.gram p = 0x00#8) ∧ keepsControl s t ∧
    emits s t
      (let gap := if Config.hsWait then [Event.wait] else []
       [.pin clk false] ++ gap ++ [.pin dio false] ++ gap ++ frameSeq d [0x40#8] ++
         frameSeq d [0x88#8 ||| d.bright.zeroExtend 8])

/-- SETBRI: BRIGHT is the clamped operand, nothing else is written, `F[0x40]` and `F[DISPBYTE]` with the new value; given again it
writes the same (42_display R157). -/
def Obligations.SetBrightnessClampsAndReissues : Prop :=
  (∀ b : CBundle, b.op = 0b0001#4 → decode (.cport b) = .instr (.setbri b.a)) ∧
  ∀ (s : State) (d : Driver) (a : Word), s.mode = .active d → ∃ t d', exec (.setbri a) s = .next t ∧
    t.mode = .active d' ∧ (d'.bright.toNat : Int) = max 0 (min 7 a.toInt) ∧
    d'.pinclk = d.pinclk ∧ d'.pindio = d.pindio ∧ t.power = s.power ∧
    (∀ p, memRead t.gram p = memRead s.gram p) ∧ keepsControl s t ∧
    emits s t (frameSeq d [0x40#8] ++ frameSeq d [dispCtlByte s.power d'.bright]) ∧
    ∀ u, exec (.setbri a) t = .next u → u.mode = t.mode ∧ u.power = t.power ∧ ∀ p, memRead u.gram p = memRead t.gram p

/-- SETPWR: POWER is on iff the operand is not 0, nothing else is written, one frame `F[DISPBYTE]` (42_display R158). -/
def Obligations.SetPowerReissuesDisplayControl : Prop :=
  (∀ b : CBundle, b.op = 0b0010#4 → decode (.cport b) = .instr (.setpwr b.a)) ∧
  ∀ (s : State) (d : Driver) (a : Word), s.mode = .active d → ∃ t, exec (.setpwr a) s = .next t ∧
    (t.power = true ↔ a ≠ 0) ∧ t.mode = s.mode ∧ (∀ p, memRead t.gram p = memRead s.gram p) ∧ keepsControl s t ∧
    emits s t (frameSeq d [0x80#8 ||| (BitVec.ofBool t.power).zeroExtend 8 <<< 3 ||| d.bright.zeroExtend 8])

/-- WRMEM: a start position outside 0 to 15 is a no-op; otherwise the first `min(c_len, 16)` elements, masked, go to the mirror
at the positions below 16 and, all of them, on the wire in three frames (42_display R159, 20_memory R56, R57; the mirror's share and the lengths past its end are the spec's own
decisions D14 and D15). -/
def Obligations.WriteMemoryStoresAndSends : Prop :=
  (∀ b : CBundle, b.op = 0b0011#4 → decode (.cport b) = .instr (.wrmem b.a b.len b.data)) ∧
  ∀ (s : State) (d : Driver) (a : Word) (len : BitVec 5) (data : Vector Word 16), s.mode = .active d →
    (¬ (0 ≤ a.toInt ∧ a.toInt < 16) → exec (.wrmem a len data) s = .next s) ∧
    ∀ start : Nat, start < 16 → a.toInt = start → ∃ t, exec (.wrmem a len data) s = .next t ∧
      t.mode = s.mode ∧ t.power = s.power ∧ keepsControl s t ∧
      (∀ k x, k < min len.toNat 16 → start + k < 16 → data.toList[k]? = some x →
        memRead t.gram (start + k) = BitVec.ofNat 8 x.toNat) ∧
      (∀ p, p < start ∨ start + min len.toNat 16 ≤ p ∨ 16 ≤ p → memRead t.gram p = memRead s.gram p) ∧
      emits s t (frameSeq d [0x40#8] ++
        frameSeq d (BitVec.ofNat 8 (0xC0 + start) ::
          (data.toList.take (min len.toNat 16)).map fun x => BitVec.ofNat 8 x.toNat) ++
        frameSeq d [dispByte s d])

/-- CLEAR is WRMEM 0, [0, 0, 0, 0]: positions 0 to 3 become 0x00, the others stay (42_display R160). -/
def Obligations.ClearIsAWriteOfFourZeros : Prop :=
  (∀ b : CBundle, b.op = 0b0100#4 → decode (.cport b) = .instr .clear) ∧
  ∀ (s : State) (d : Driver), s.mode = .active d →
    exec .clear s = exec (.wrmem 0 4 (Vector.replicate 16 0)) s ∧
    ∃ t, exec .clear s = .next t ∧ t.mode = s.mode ∧ t.power = s.power ∧ keepsControl s t ∧
      digitsAre s t [0x00#8, 0x00#8, 0x00#8, 0x00#8] ∧
      emits s t (frameSeq d [0x40#8] ++ frameSeq d [0xC0#8, 0x00#8, 0x00#8, 0x00#8, 0x00#8] ++ frameSeq d [dispByte s d])

/-- REFRESH sends the mirror's first four bytes unconditionally and changes no position; a canonical mirror stays the same
data; it is WRMEM 0 of those four bytes; given twice it sends the same events twice (42_display R161). -/
def Obligations.RefreshResendsTheFirstFour : Prop :=
  (∀ b : CBundle, b.op = 0b0101#4 → decode (.cport b) = .instr .refresh) ∧
  ∀ (s : State) (d : Driver), s.mode = .active d →
    (∀ data : Vector Word 16, (∀ k, k < 4 → data.toList[k]? = some ((memRead s.gram k).zeroExtend 32)) →
      exec .refresh s = exec (.wrmem 0 4 data) s) ∧
    ∃ t, exec .refresh s = .next t ∧ t.mode = s.mode ∧ t.power = s.power ∧ keepsControl s t ∧
      (∀ p, memRead t.gram p = memRead s.gram p) ∧ (s.gram.wf → t.gram = s.gram) ∧
      emits s t (frameSeq d [0x40#8] ++
        frameSeq d [0xC0#8, memRead s.gram 0, memRead s.gram 1, memRead s.gram 2, memRead s.gram 3] ++
        frameSeq d [dispByte s d]) ∧
      ∀ u, exec .refresh t = .next u → newEvents t u = newEvents s t

/-- Every display-control frame a command sends carries DISPBYTE, the power and brightness in force after it: what a command
emits, after INIT's handshake, is a sequence of frames that ends with that frame, and no frame before it is a display-control
frame (first byte 0x80 to 0x8F, 30_encoding R84) (42_display R162). -/
def Obligations.DisplayControlCarriesTheValuesInForce : Prop :=
  ∀ (i : Instr) (s t : State), i.port = .cport → exec i s = .next t → t.trace ≠ s.trace →
    ∃ (d : Driver) (handshake : List Event) (fs : List (List Byte)), t.mode = .active d ∧
      (handshake = [] ∨ ∃ clk dio a, i = .init clk dio a ∧ handshake = handshakeSeq Config.hsWait d) ∧
      (∀ f ∈ fs, ∀ b, f.head? = some b → b &&& 0xF0#8 ≠ 0x80#8) ∧
      emits s t (handshake ++ fs.flatMap (frameSeq d) ++
        frameSeq d [0x80#8 ||| (BitVec.ofBool t.power).zeroExtend 8 <<< 3 ||| d.bright.zeroExtend 8])

/-- What each command leaves alone, the table of 42_display R164, with the frame of every other instruction. -/
def Obligations.CommandsLeaveTheRestAlone : Prop :=
  ∀ (i : Instr) (s t : State) (d : Driver), s.mode = .active d → exec i s = .next t →
    keepsControl s t ∧
    match i with
    | .init clk dio _ => (∃ b, t.mode = .active { pinclk := clk, pindio := dio, bright := b }) ∧ t.power = true ∧
        ∀ p, memRead t.gram p = 0x00#8
    | .setbri _ => (∃ b, t.mode = .active { d with bright := b }) ∧ t.power = s.power ∧
        ∀ p, memRead t.gram p = memRead s.gram p
    | .setpwr _ => t.mode = s.mode ∧ ∀ p, memRead t.gram p = memRead s.gram p
    | .wrmem a len _ => t.mode = s.mode ∧ t.power = s.power ∧
        ∀ p : Nat, ¬ (0 ≤ a.toInt ∧ a.toInt < 16 ∧ a.toInt ≤ p ∧ (p : Int) < a.toInt + min len.toNat 16 ∧ p < 16) →
          memRead t.gram p = memRead s.gram p
    | .clear => t.mode = s.mode ∧ t.power = s.power ∧ (∀ p, p < 4 → memRead t.gram p = 0x00#8) ∧
        ∀ p, 4 ≤ p → memRead t.gram p = memRead s.gram p
    | .refresh => t.mode = s.mode ∧ t.power = s.power ∧ ∀ p, memRead t.gram p = memRead s.gram p
    | .showint _ | .showflt1 _ => t.mode = s.mode ∧ t.power = s.power ∧
        ∀ p, 4 ≤ p → memRead t.gram p = memRead s.gram p
    | _ => keepsRegisters s t

/-- The state machine: over any step of the machine, only INIT makes a block Active or changes the pin binding, and only a
reset leaves Active (42_display R163, 10_state R21, R22; the reset input is the spec's decision D23). -/
def Obligations.OnlyInitBindsAndOnlyResetUnbinds : Prop :=
  ∀ s t : State, step s = .next t →
    match s.mode, t.mode with
    | .uninitialized, .uninitialized => True
    | .uninitialized, .active _ => ∃ b rest, b.op = 0b0000#4 ∧
        (s.inbox = .command (.cport b) :: rest ∨ s.inbox = .start (.cport b) :: rest)
    | .active _, .uninitialized => ∃ rest, s.inbox = .reset :: rest
    | .active d, .active d' => (d'.pinclk = d.pinclk ∧ d'.pindio = d.pindio) ∨
        ∃ b rest, b.op = 0b0000#4 ∧ d'.pinclk = b.clk ∧ d'.pindio = b.dio ∧
          (s.inbox = .command (.cport b) :: rest ∨ s.inbox = .start (.cport b) :: rest)

/-- A command given twice leaves the registers and the mirror it leaves given once, and its second event sequence is the first
one again: idempotent in state, not in the trace (20_memory R59, 42_display R161). -/
def Obligations.CommandsAreIdempotentInState : Prop :=
  ∀ (i : Instr) (s t u : State), i.port = .cport → exec i s = .next t → exec i t = .next u →
    u.mode = t.mode ∧ u.power = t.power ∧ (∀ p, memRead u.gram p = memRead t.gram p) ∧
      newEvents t u = newEvents s t

/-- The commands keep the idle bus: both bound pins high before, both bound pins high after; INIT makes it so (40_transport
R121). -/
def Obligations.CommandsKeepTheBusIdle : Prop :=
  ∀ (i : Instr) (s t : State), i.port = .cport → exec i s = .next t →
    (idleHigh s → idleHigh t) ∧ ∀ clk dio a, i = .init clk dio a → idleHigh t

/-- Every memory write is three frames: a data command, the address with its payload, a display control; the other commands
send one or two frames, and none sends a memory write unbracketed (70_reset R253, 40_transport R120, 42_display R156 to
R161). -/
def Obligations.CommandsSendTheseFrames : Prop :=
  ∀ (i : Instr) (s t : State) (d : Driver), exec i s = .next t → t.mode = .active d → d.pinclk ≠ d.pindio →
    (rxRun d.pinclk d.pindio s.trace).pos = .outside 0 → s.mode ≠ .uninitialized ∨ (∃ clk dio a, i = .init clk dio a) →
    (i.port = .cport → (rxRun d.pinclk d.pindio t.trace).pos = .outside 0) ∧
    let added := (frames d.pinclk d.pindio t.trace).drop (frames d.pinclk d.pindio s.trace).length
    let control := 0x80#8 ||| (BitVec.ofBool t.power).zeroExtend 8 <<< 3 ||| d.bright.zeroExtend 8
    match i with
    | .init _ _ _ | .setbri _ => added = [[0x40#8], [control]]
    | .setpwr _ => added = [[control]]
    | .wrmem a len data => added = if 0 ≤ a.toInt ∧ a.toInt < 16 then
        [[0x40#8], BitVec.ofNat 8 (0xC0 + a.toInt.toNat) :: payloadBytes len data, [control]] else []
    | .clear | .refresh | .showint _ | .showflt1 _ => added =
        [[0x40#8], [0xC0#8, memRead t.gram 0, memRead t.gram 1, memRead t.gram 2, memRead t.gram 3], [control]]
    | _ => True

/-! ### Mirror and device -/

/-- After a completed memory write on a clean link the link is clean again, every position that was addressed reads the same
on the device and in the mirror, and the device's control is the block's power and brightness (20_memory R61, 42_display R162;
it rests on the premise G4 the view carries, log 13, and on a device never power-cycled alone, log 21). -/
def Obligations.MemoryWritesReachTheDevice : Prop :=
  ∀ (i : Instr) (s t : State) (d : Driver), s.mode = .active d → linkClean d.pinclk d.pindio s →
    exec i s = .next t →
    ∀ start count : Nat, start + count ≤ 16 →
      (match i with
       | .wrmem a len _ => start < 16 ∧ a.toInt = start ∧ count = min len.toNat 16
       | .clear | .refresh | .showint _ | .showflt1 _ => start = 0 ∧ count = 4
       | _ => False) →
      linkClean d.pinclk d.pindio t ∧
      ∃ r, deviceView d.pinclk d.pindio t = .regs r ∧ r.bracket = .closed ∧ r.autoIncrement = true ∧
        r.control = some (t.power, d.bright) ∧
        ∀ p, start ≤ p → p < start + count → displayAt r p = some (memRead t.gram p)

/-- The device remembers on its own: SETPWR and SETBRI change its control and leave its display bytes, and a reset of the block
between commands leaves everything it holds while the mirror becomes zero (20_memory R68, 60_exceptions R231, 70_reset R259;
the view's premises are log 13, log 21 and log 22). -/
def Obligations.PowerAndBrightnessKeepTheDisplay : Prop :=
  (∀ (i : Instr) (s t : State) (d : Driver) (r : DeviceRegs), s.mode = .active d →
    linkClean d.pinclk d.pindio s → deviceView d.pinclk d.pindio s = .regs r →
    (∃ a, i = .setpwr a ∨ i = .setbri a) → exec i s = .next t →
      linkClean d.pinclk d.pindio t ∧
      ∃ r' b, deviceView d.pinclk d.pindio t = .regs r' ∧ r'.display = r.display ∧
        t.mode = .active { d with bright := b } ∧ r'.control = some (t.power, b)) ∧
  ∀ (s : State) (rest : List Input) (clk dio : PinId) (r : DeviceRegs), s.seq = .idle → s.inbox = .reset :: rest →
    deviceView clk dio s = .regs r →
      ∃ u, step s = .next u ∧ deviceView clk dio u = .regs r ∧ ∀ p, memRead u.gram p = 0x00#8

/-- INIT sends no memory write: it zeroes the mirror and leaves the device's display bytes, with the display on at the given
brightness (70_reset R248, R250). Nothing rests on its first frame, begun from both lines low (R257, U14): whether the device
is in write mode is known after INIT only if it was known before. The view's premises are log 13 and log 21. -/
def Obligations.InitDoesNotClearTheDevice : Prop :=
  ∀ (s t : State) (clk dio : PinId) (a : Word) (r : DeviceRegs), deviceView clk dio s = .regs r →
    exec (.init clk dio a) s = .next t →
      linkClean clk dio t ∧
      ∃ r', deviceView clk dio t = .regs r' ∧ r'.display = r.display ∧ r'.bracket = .closed ∧
        r'.autoIncrement = r.autoIncrement ∧ r'.control = some (true, brightnessOperand a) ∧
        ∀ p, memRead t.gram p = 0x00#8

/-! ### Encoder and renderers -/

/-- The font table: its default, of which six values are the spec's from general knowledge (log 6); every table the constraint
admits has the six values D00 fixes and bit 7 clear for every code; absent codes are blank in any table; no step, a reset
included, writes the table in force (41_font R142, R143, R144, R145). -/
def Obligations.FontTableValues : Prop :=
  State.reset.font = defaultFont ∧ defaultFont.admissible = true ∧
  fontMap defaultFont ([0x30, 0x31, 0x32, 0x33, 0x34, 0x35, 0x36, 0x37, 0x38, 0x39, 0x2D, 0x20] : List Byte) =
    [0x3F#8, 0x06#8, 0x5B#8, 0x4F#8, 0x66#8, 0x6D#8, 0x7D#8, 0x07#8, 0x7F#8, 0x6F#8, 0x40#8, 0x00#8] ∧
  (∀ (t : FontTable) (c : Byte), ¬ (0x30 ≤ c.toNat ∧ c.toNat ≤ 0x39) → c ≠ 0x2D#8 → c ≠ 0x20#8 →
    fontLookup t c = 0x00#8) ∧
  (∀ t : FontTable, t.admissible = true →
    fontMap t ([0x31, 0x32, 0x33, 0x34, 0x35, 0x20] : List Byte) = [0x06#8, 0x5B#8, 0x4F#8, 0x66#8, 0x6D#8, 0x00#8] ∧
    ∀ c : Byte, (fontLookup t c).getLsbD 7 = false ∧ withPoint (fontLookup t c) = fontLookup t c + 0x80#8) ∧
  ∀ s t : State, step s = .next t → t.font = s.font

/-- `decstr`: base-10 digits of the magnitude, most significant first, no leading zero, "0" for 0, a `'-'` before a negative
one; never empty; at most 11 characters for a 32-bit operand (43_renderers R185; the sign is the spec's own policy, D16; the
codes are ASCII, log 7). -/
def Obligations.DecimalStringsAreDecimal : Prop :=
  (∀ n : Int, ∃ digits : List Nat,
    decstr n = (if n < 0 then [0x2D#8] else []) ++ digits.map (fun x => BitVec.ofNat 8 (0x30 + x)) ∧
    (∀ x ∈ digits, x < 10) ∧ digits.foldl (fun acc x => 10 * acc + x) 0 = n.natAbs ∧ digits ≠ [] ∧
    (digits.head? = some 0 → digits = [0])) ∧
  (∀ n : Int, n < 0 → decstr n = 0x2D#8 :: decstr (-n)) ∧
  ∀ a : Word, 1 ≤ (decstr a.toInt).length ∧ (decstr a.toInt).length ≤ 11

/-- SHOWINT: the first four characters of the decimal string through the font, blanks on the left, at positions 0 to 3, then
the three frames of REFRESH; no point (43_renderers R188; the font table is the one in force; negatives by
the spec's policy D16). -/
def Obligations.ShowIntegerStoresFirstFour : Prop :=
  (∀ b : CBundle, b.op = 0b0110#4 → decode (.cport b) = .instr (.showint b.a)) ∧
  ∀ (s : State) (d : Driver) (a : Word), s.mode = .active d → ∃ t segs, exec (.showint a) s = .next t ∧
    segs = padleft4 (((decstr a.toInt).take 4).map (fontLookup s.font)) ∧ digitsAre s t segs ∧
    t.mode = s.mode ∧ t.power = s.power ∧ keepsControl s t ∧
    (s.font.admissible = true → ∀ b ∈ segs, b.getLsbD 7 = false) ∧
    emits s t (frameSeq d [0x40#8] ++ frameSeq d (0xC0#8 :: segs) ++ frameSeq d [dispByte s d])

/-- SHOWFLT1: the integer part of the tenths with the point on its last character, the fraction digit after it, blanks on the
left, the last four entries at positions 0 to 3, then the three frames of REFRESH (43_renderers R189; the font table
is the one in force; negatives by the spec's policy D16). -/
def Obligations.ShowTenthsStoresLastFour : Prop :=
  (∀ b : CBundle, b.op = 0b0111#4 → decode (.cport b) = .instr (.showflt1 b.a)) ∧
  ∀ (s : State) (d : Driver) (a : Word), s.mode = .active d → ∃ t segs whole last, exec (.showflt1 a) s = .next t ∧
    whole ++ [last] = ((if a.toInt < 0 then [0x2D#8] else []) ++ decstr ((a.toInt.tdiv 10).natAbs : Int)).map
      (fontLookup s.font) ∧
    segs = last4 (padleft4 (whole ++ [last ||| 0x80#8] ++
      [fontLookup s.font (BitVec.ofNat 8 (0x30 + (a.toInt.tmod 10).natAbs))])) ∧
    digitsAre s t segs ∧ t.mode = s.mode ∧ t.power = s.power ∧ keepsControl s t ∧
    emits s t (frameSeq d [0x40#8] ++ frameSeq d (0xC0#8 :: segs) ++ frameSeq d [dispByte s d])

/-- After SHOWFLT1 exactly one digit has its point set, the one at position 2 (43_renderers R189, 41_font R144). The font
table in force is one 41_font R142 admits, which every step keeps (StepKeepsTheInvariant). -/
def Obligations.ThePointStandsAtPositionTwo : Prop :=
  ∀ (s t : State) (d : Driver) (a : Word), s.mode = .active d → s.font.admissible = true →
    exec (.showflt1 a) s = .next t → ∀ p, p < 4 → ((memRead t.gram p).getLsbD 7 = true ↔ p = 2)

/-- What is shown whole: SHOWINT drops no character exactly for -999 to 9999, SHOWFLT1 no segment exactly for -999 to 9999
tenths (43_renderers R195). -/
def Obligations.ShownWholeExactlyInRange : Prop :=
  (∀ n : Int, first4 (decstr n) = decstr n ↔ -999 ≤ n ∧ n ≤ 9999) ∧
  ∀ (t : FontTable) (n10 : Int), last4 (padleft4 (tenthsSegments t n10)) = padleft4 (tenthsSegments t n10) ↔
    -999 ≤ n10 ∧ n10 ≤ 9999

/-- Negative numbers, for every font: SHOWINT always keeps the sign as its first character; SHOWFLT1 shows it down to -999
tenths and drops it below, where the segments are those of the positive number (43_renderers R191, 70_reset R261; the spec's own policy, D16). -/
def Obligations.SignShownOrDropped : Prop :=
  (∀ n : Int, n < 0 → (first4 (decstr n)).head? = some 0x2D#8) ∧
  (∀ (t : FontTable) (n10 : Int), -999 ≤ n10 → n10 < 0 → ∃ k rest,
    fltSegments t n10 = List.replicate k 0x00#8 ++ fontLookup t 0x2D#8 :: rest ∧ k + rest.length = 3) ∧
  ∀ (t : FontTable) (n10 : Int), n10 ≤ -1000 → fltSegments t n10 = fltSegments t (-n10)

/-- The front end's `trunc` and `round_haz` of an exact fraction: the nearest integer not farther from zero; a nearest integer,
the one farther from zero on a tie (00_scope R10, 43_renderers R186, R187). -/
def Obligations.FrontEndRounding : Prop :=
  ∀ (num : Int) (den : Nat), 0 < den →
    (|truncFrac num den * den| ≤ |num| ∧ |num - truncFrac num den * den| < den) ∧
    2 * |num - roundHazFrac num den * den| ≤ den ∧
    (2 * |num - roundHazFrac num den * den| = den → |num| < |roundHazFrac num den * den|)

/-- What the front end forms and refuses: the operand is the number's integer when it fits 32 signed bits, and no command is
formed when it does not or when the number is not finite (43_renderers R193; the refusal is the spec's own decision D19; log 14). The other calls form
the instruction of 30_encoding R95: a brightness left out is 5 (D34), the Transport's calls its requests, a wider byte value
masked (40_transport R115). -/
def Obligations.FrontEndFormsOrRefuses : Prop :=
  (formCommand (.showInteger .notFinite) = none ∧ formCommand (.showFloat1 .notFinite) = none) ∧
  (∀ (num : Int) (den : Nat), 0 < den →
    (-2 ^ 31 ≤ truncFrac num den → truncFrac num den < 2 ^ 31 →
      ∃ a, formCommand (.showInteger (.fraction num den)) = some (.showint a) ∧ a.toInt = truncFrac num den) ∧
    (truncFrac num den < -2 ^ 31 ∨ 2 ^ 31 ≤ truncFrac num den →
      formCommand (.showInteger (.fraction num den)) = none) ∧
    (-2 ^ 31 ≤ roundHazFrac (num * 10) den → roundHazFrac (num * 10) den < 2 ^ 31 →
      ∃ a, formCommand (.showFloat1 (.fraction num den)) = some (.showflt1 a) ∧
        a.toInt = roundHazFrac (num * 10) den) ∧
    (roundHazFrac (num * 10) den < -2 ^ 31 ∨ 2 ^ 31 ≤ roundHazFrac (num * 10) den →
      formCommand (.showFloat1 (.fraction num den)) = none)) ∧
  (∀ clk dio, formCommand (.initCall clk dio none) = some (.init clk dio 5)) ∧
  (∀ on, ∃ a, formCommand (.setPower on) = some (.setpwr a) ∧ onFlag a = on) ∧
  (∀ v : Int, -2 ^ 31 ≤ v → v < 2 ^ 31 → ∃ a, formCommand (.setBrightness v) = some (.setbri a) ∧ a.toInt = v ∧
    ∀ clk dio, formCommand (.initCall clk dio (some v)) = some (.init clk dio a)) ∧
  (formCommand .clear = some .clear ∧ formCommand .refresh = some .refresh) ∧
  (∀ level, formCommand (.setClock level) = some (.tSetclk level) ∧ formCommand (.setData level) = some (.tSetdat level)) ∧
  (formCommand .startFrame = some .tStart ∧ formCommand .stopFrame = some .tStop) ∧
  ∀ v : Int, ∃ b, formCommand (.writeByte v) = some (.tWbyte b) ∧ (b.toNat : Int) = v % 256

/-! ### Whole-machine rules -/

/-- The state after power-up: Uninitialized, POWER on, every mirror position 0x00, FONT its default (log 6), no pin
driven, TRACE empty, SEQ idle
(10_state R35; POWER and the mirror before INIT are the spec's own decisions D23 and D24; log 9). -/
def Obligations.ResetState : Prop :=
  State.reset.mode = .uninitialized ∧ State.reset.power = true ∧ (∀ p, memRead State.reset.gram p = 0x00#8) ∧
  State.reset.font = defaultFont ∧
  (∀ p, pinLevel State.reset p = Config.pinResetLevel 0 p) ∧ State.reset.trace = [] ∧ State.reset.seq = .idle

/-- The invariant holds after power-up. -/
def Obligations.ResetMeetsTheInvariant : Prop := Inv State.reset

/-- Every step keeps the invariant: the mirror canonical with positions below 16, the levels canonical and those the trace last
drove, SEQ with an event still to emit while it runs, the font table one 41_font R142 admits (10_state R25, R26, R27, R29). -/
def Obligations.StepKeepsTheInvariant : Prop :=
  ∀ s t : State, Inv s → step s = .next t → Inv t

/-- TRACE is append-only over every step (10_state R28, 40_transport R110), but for a reset input taken between commands, after
which it is empty (10_state R35); a reset that cuts a command short keeps it (70_reset R245). The emptied TRACE is kept
aside (log 22). Which holds when is the model's reading, log 9. -/
def Obligations.TraceOnlyGrows : Prop :=
  ∀ s t : State, step s = .next t →
    (s.trace <+: t.trace ∧ t.past = s.past) ∨
      (s.seq = .idle ∧ (∃ rest, s.inbox = .reset :: rest) ∧ t.trace = [] ∧ t.past = s.past ++ [s.trace])

/-- No instruction reads LVL, TRACE or SEQ: two states with the same registers give the same registers and the same events
(10_state R27, R28). -/
def Obligations.NothingReadsLevelsOrTrace : Prop :=
  ∀ (i : Instr) (s t u : State), u.mode = s.mode → u.power = s.power → u.gram = s.gram → u.font = s.font →
    exec i s = .next t →
    ∃ v, exec i u = .next v ∧ v.mode = t.mode ∧ v.power = t.power ∧ v.gram = t.gram ∧ newEvents u v = newEvents s t

/-- Nothing reads positions 4 to 15 of the mirror: two states that agree on the registers and the four digits give the same
registers, digits and events (10_state R25). -/
def Obligations.NothingReadsUpperPositions : Prop :=
  ∀ (i : Instr) (s t u v : State), u.mode = s.mode → u.power = s.power → u.font = s.font →
    (∀ p, p < 4 → memRead u.gram p = memRead s.gram p) → exec i s = .next t → exec i u = .next v →
      v.mode = t.mode ∧ v.power = t.power ∧ (∀ p, p < 4 → memRead v.gram p = memRead t.gram p) ∧
        newEvents u v = newEvents s t
end

