-- ==== Sys2Proof/Laws/Bus.lean ====
section
/-! SUPPORT. The lengths of the bus sequences (40_transport R124), and how the sampler, the frame decoder and the device's
observer run over a concatenation. -/

namespace Sys2Proof.Machine

@[simp] theorem startSeq_length (d : Driver) : (startSeq d).length = 4 := rfl

@[simp] theorem stopSeq_length (d : Driver) : (stopSeq d).length = 6 := rfl

@[simp] theorem byteSeq_length (d : Driver) (v : Byte) : (byteSeq d v).length = 48 := rfl

theorem bytes_length (d : Driver) (bytes : List Byte) : (bytes.flatMap (byteSeq d)).length = 48 * bytes.length := by
  induction bytes with
  | nil => rfl
  | cons b bs ih => simp [ih]; omega

@[simp] theorem frameSeq_length (d : Driver) (bytes : List Byte) :
    (frameSeq d bytes).length = 10 + 48 * bytes.length := by
  simp only [frameSeq, List.length_append, startSeq_length, stopSeq_length, bytes_length]; omega

/-- The sampler's knowledge after a list of events. -/
def samplerAfter (clk dio : PinId) (m : Sampler) (es : List Event) : Sampler := es.foldl (sampleNext clk dio) m

theorem sampledFrom_append (clk dio : PinId) (m : Sampler) (es fs : List Event) :
    sampledFrom clk dio m (es ++ fs) =
      sampledFrom clk dio m es ++ sampledFrom clk dio (samplerAfter clk dio m es) fs := by
  induction es generalizing m with
  | nil => rfl
  | cons e es ih => simp [sampledFrom, ih, samplerAfter]

theorem rxRun_append (clk dio : PinId) (es fs : List Event) :
    rxRun clk dio (es ++ fs) = fs.foldl (rxNext clk dio) (rxRun clk dio es) := by
  simp [rxRun, List.foldl_append]

theorem deviceRun_append (clk dio : PinId) (m : DeviceRx) (es fs : List Event) :
    deviceRun clk dio m (es ++ fs) = deviceRun clk dio (deviceRun clk dio m es) fs := by
  simp [deviceRun, List.foldl_append]

/-- The observer's decoder is the frame decoder. -/
@[simp] theorem deviceRun_rx (clk dio : PinId) (es : List Event) (m : DeviceRx) :
    (deviceRun clk dio m es).rx = es.foldl (rxNext clk dio) m.rx := by
  induction es generalizing m with
  | nil => rfl
  | cons e es ih =>
    change (deviceRun clk dio (deviceNext clk dio m e) es).rx = _
    rw [ih]; rfl

/-- The observer's levels are the sampler's. -/
@[simp] theorem deviceRun_levels (clk dio : PinId) (es : List Event) (m : DeviceRx) :
    (deviceRun clk dio m es).levels = samplerAfter clk dio m.levels es := by
  induction es generalizing m with
  | nil => rfl
  | cons e es ih =>
    change (deviceRun clk dio (deviceNext clk dio m e) es).levels = _
    rw [ih]; rfl

@[simp] theorem deviceBefore_nil (clk dio : PinId) : deviceBefore clk dio [] = deviceRxStart := rfl

/-- One more trace ended by a reset between commands. -/
theorem deviceBefore_append (clk dio : PinId) (past : List (List Event)) (trace : List Event) :
    deviceBefore clk dio (past ++ [trace]) = overReset (deviceRun clk dio (deviceBefore clk dio past) trace) := by
  simp [deviceBefore, List.foldl_append]

/-- After the earlier traces only the device is carried over. -/
theorem deviceBefore_eq (clk dio : PinId) (past : List (List Event)) :
    deviceBefore clk dio past = { deviceRxStart with device := (deviceBefore clk dio past).device } := by
  induction past using List.reverseRecOn with
  | nil => rfl
  | append_singleton past trace _ => rw [deviceBefore_append]; rfl

/-- The decoder of a state's observer is that of its TRACE. -/
@[simp] theorem deviceRx_rx (clk dio : PinId) (s : State) : (deviceRx clk dio s).rx = rxRun clk dio s.trace := by
  rw [deviceRx, deviceRun_rx, deviceBefore_eq]; rfl

/-- The sampler knows the level each of its pins was last driven to, or what it knew before. -/
theorem samplerAfter_levels (clk dio : PinId) (es : List Event) (m : Sampler) :
    samplerAfter clk dio m es =
      { clock := es.foldl (lastLevel clk) m.clock, data := es.foldl (lastLevel dio) m.data } := by
  induction es generalizing m with
  | nil => rfl
  | cons e es ih =>
    change samplerAfter clk dio (sampleNext clk dio m e) es = _
    rw [ih]
    cases e <;> rfl

@[simp] theorem deviceRx_levels (clk dio : PinId) (s : State) :
    (deviceRx clk dio s).levels = { clock := lastDriven clk s.trace, data := lastDriven dio s.trace } := by
  rw [deviceRx, deviceRun_levels, deviceBefore_eq, samplerAfter_levels]; rfl

/-- Where the device has a meaning the pins are distinct, the trace stands between frames and no memory write is open. -/
theorem deviceView_regs {clk dio : PinId} {s : State} {r : DeviceRegs} (h : deviceView clk dio s = .regs r) :
    clk ≠ dio ∧ (rxRun clk dio s.trace).pos = .outside 0 ∧ (deviceRx clk dio s).device = .regs r ∧
      r.bracket ≠ .pending := by
  unfold deviceView at h
  split at h
  · cases h
  · rename_i hne
    rw [← deviceRx_rx]
    unfold settled at h
    split at h
    · rename_i hp hd
      split at h
      · cases h
      · rename_i hb
        cases h
        exact ⟨hne, hp, hd, hb⟩
    · cases h

end Sys2Proof.Machine
end

