-- ==== Sys2Proof/Laws/Decode.lean ====
section
/-! SUPPORT. The laws of the packed form: a field put below a number comes back, and so do the lanes. -/

namespace Sys2Proof

theorem putField_mod {w : Nat} (v : BitVec w) (rest : Nat) : putField v rest % 2 ^ w = v.toNat := by
  simp [putField, Nat.add_mul_mod_self_left, Nat.mod_eq_of_lt v.isLt]

@[simp] theorem putField_div {w : Nat} (v : BitVec w) (rest : Nat) : putField v rest / 2 ^ w = rest := by
  rw [putField, Nat.add_mul_div_left _ _ (Nat.two_pow_pos w), Nat.div_eq_of_lt v.isLt, Nat.zero_add]

@[simp] theorem fieldOf_putField {w : Nat} (v : BitVec w) (rest : Nat) : fieldOf w (putField v rest) = v := by
  apply BitVec.eq_of_toNat_eq; simp [fieldOf, putField_mod]

@[simp] theorem dropField_putField {w : Nat} (v : BitVec w) (rest : Nat) : dropField w (putField v rest) = rest :=
  putField_div v rest

/-- A field above the lowest one stands `w` bits higher than it would alone. -/
theorem putField_div_above {w : Nat} (v : BitVec w) (rest a b : Nat) (h : b = w + a) :
    putField v rest / 2 ^ b = rest / 2 ^ a := by
  subst h; rw [Nat.pow_add, ← Nat.div_div_eq_div_mul, putField_div]

theorem putField_ofBool_testBit (b : Bool) (rest : Nat) : (putField (BitVec.ofBool b) rest).testBit 0 = b := by
  cases b <;> simp [putField, Nat.testBit_zero, Nat.add_mod]

theorem laneOf_putField_succ {w : Nat} (v : BitVec w) (rest k : Nat) :
    laneOf w (putField v rest) (k + 1) = laneOf w rest k := by
  simp only [laneOf]
  rw [Nat.mul_succ, Nat.add_comm (w * k), Nat.pow_add, ← Nat.div_div_eq_div_mul, putField_div]

/-- Lane `k` of packed lanes is the `k`-th lane. -/
theorem laneOf_packLanes {w : Nat} (l : List (BitVec w)) (k : Nat) (h : k < l.length) :
    laneOf w (packLanes l) k = l[k] := by
  induction l generalizing k with
  | nil => simp at h
  | cons v vs ih =>
    cases k with
    | zero => simp [laneOf, packLanes]
    | succ k => simp only [packLanes, laneOf_putField_succ]; simpa using ih k (by simpa using h)

/-- The sixteen lanes come back. -/
@[simp] theorem unpackLanes_packLanes {w : Nat} (v : Vector (BitVec w) 16) :
    unpackLanes w (packLanes v.toList) = v := by
  ext k hk
  have lanes : ∀ k, k < 16 → (unpackLanes w (packLanes v.toList))[k]! = laneOf w (packLanes v.toList) k := by
    intro k hk; interval_cases k <;> rfl
  have h := lanes k hk
  rw [getElem!_pos _ k hk] at h
  rw [h, laneOf_packLanes _ _ (by simpa using hk)]
  simp

end Sys2Proof
end

