-- ==== Sys2Proof/Laws/Memory.lean ====
section
/-! SUPPORT. The laws of the mirror: read after write, what a store leaves alone, and the canonical form. None of the read
laws needs the canonical form. -/

namespace Sys2Proof.Machine

@[simp] theorem memRead_nil (a : Nat) : memRead [] a = 0x00#8 := rfl

theorem memRead_cellErase (m : Memory) (a x : Nat) :
    memRead (cellErase m a) x = if x = a then 0x00#8 else memRead m x := by
  induction m with
  | nil => simp [cellErase]
  | cons c m ih =>
    obtain ⟨k, v⟩ := c
    by_cases hk : k = a
    · simp only [cellErase, List.filter_cons, hk, ne_eq, not_true, decide_false] at ih ⊢
      simp only [ih, memRead, Bool.false_eq_true, if_false]
      split_ifs with h1 h2 <;> simp_all
    · simp only [cellErase, List.filter_cons, hk, ne_eq, not_false_eq_true, decide_true, if_true, memRead] at ih ⊢
      rw [ih]
      split_ifs with h1 h2 <;> simp_all

theorem memRead_cellInsert {m : Memory} {a : Nat} (h : ∀ c ∈ m, c.1 ≠ a) (b : Byte) (x : Nat) :
    memRead (cellInsert a b m) x = if x = a then b else memRead m x := by
  induction m with
  | nil => simp [cellInsert, memRead, eq_comm]
  | cons c m ih =>
    obtain ⟨k, v⟩ := c
    have hk : k ≠ a := h (k, v) (by simp)
    have ih := ih fun c hc => h c (by simp [hc])
    simp only [cellInsert]
    by_cases hx : x = a
    · subst hx
      rw [if_pos rfl] at ih ⊢
      split_ifs with h1 <;> simp [memRead, hk, ih]
    · have hax : a ≠ x := fun h => hx h.symm
      rw [if_neg hx] at ih ⊢
      split_ifs with h1 <;> simp [memRead, hax, ih]

theorem cellErase_ne (m : Memory) (a : Nat) : ∀ c ∈ cellErase m a, c.1 ≠ a := by
  intro c hc; simpa using (List.mem_filter.mp hc).2

/-- Read after write. -/
theorem memRead_memWrite (m : Memory) (a : Nat) (b : Byte) (x : Nat) :
    memRead (memWrite m a b) x = if x = a then b else memRead m x := by
  unfold memWrite
  split_ifs with hb hx hx
  · simp [memRead_cellErase, hx, hb]
  · simp [memRead_cellErase, hx]
  · simp [memRead_cellInsert (cellErase_ne m a), hx]
  · simp [memRead_cellInsert (cellErase_ne m a), memRead_cellErase, hx]

theorem memRead_mirrorWrite (m : Memory) (a : Nat) (b : Byte) (x : Nat) :
    memRead (mirrorWrite m a b) x = if x = a ∧ a < 16 then b else memRead m x := by
  unfold mirrorWrite gramSize
  split_ifs with h1 h2 h2 <;> simp_all [memRead_memWrite]

/-- What a store leaves at every position. -/
theorem memRead_mirrorStore (m : Memory) (a : Nat) (bs : List Byte) (x : Nat) :
    memRead (mirrorStore m a bs) x =
      if a ≤ x ∧ x < 16 then (bs[x - a]?).getD (memRead m x) else memRead m x := by
  induction bs generalizing m a with
  | nil => simp [mirrorStore]
  | cons b bs ih =>
    simp only [mirrorStore, ih, memRead_mirrorWrite]
    rcases Nat.lt_trichotomy x a with h | h | h
    · have h1 : ¬ a ≤ x := by omega
      have h2 : ¬ a + 1 ≤ x := by omega
      have h3 : x ≠ a := by omega
      simp [h1, h2, h3]
    · subst h
      by_cases hx : x < 16
      · simp [hx]
      · simp [hx]
    · have h1 : a ≤ x := by omega
      have h2 : a + 1 ≤ x := by omega
      have h3 : x ≠ a := by omega
      have h4 : x - a = (x - (a + 1)) + 1 := by omega
      simp [h1, h2, h3, h4]

/-! ### The canonical form -/

theorem memory_nil_wf : Memory.wf [] := ⟨List.Pairwise.nil, by simp⟩

theorem cellErase_wf {m : Memory} (h : m.wf) (a : Nat) : (cellErase m a).wf :=
  ⟨h.1.filter _, fun c hc => h.2 c (List.mem_filter.mp hc).1⟩

theorem mem_cellInsert {m : Memory} {a : Nat} {b : Byte} {c : Host.Cell} :
    c ∈ cellInsert a b m ↔ c = (a, b) ∨ c ∈ m := by
  induction m with
  | nil => simp [cellInsert]
  | cons e m ih =>
    simp only [cellInsert]
    split_ifs
    · simp
    · simp [ih]; tauto

theorem cellInsert_pairwise {m : Memory} (h : m.Pairwise fun c d => c.1 < d.1) {a : Nat} (ha : ∀ c ∈ m, c.1 ≠ a)
    (b : Byte) : (cellInsert a b m).Pairwise fun c d => c.1 < d.1 := by
  induction m with
  | nil => simp [cellInsert]
  | cons e m ih =>
    obtain ⟨h1, h2⟩ := List.pairwise_cons.mp h
    have hne : e.1 ≠ a := ha e (by simp)
    simp only [cellInsert]
    split_ifs with hlt
    · refine List.pairwise_cons.mpr ⟨fun c hc => ?_, h⟩
      rcases List.mem_cons.mp hc with rfl | hc
      · exact hlt
      · exact Nat.lt_trans hlt (h1 c hc)
    · refine List.pairwise_cons.mpr ⟨fun c hc => ?_, ih h2 fun c hc => ha c (by simp [hc])⟩
      rcases mem_cellInsert.mp hc with rfl | hc
      · simp only at hlt ⊢; omega
      · exact h1 c hc

theorem memWrite_wf {m : Memory} (h : m.wf) {a : Nat} (ha : a < gramSize) (b : Byte) : (memWrite m a b).wf := by
  unfold memWrite
  split_ifs with hb
  · exact cellErase_wf h a
  · refine ⟨cellInsert_pairwise (cellErase_wf h a).1 (cellErase_ne m a) b, fun c hc => ?_⟩
    rcases mem_cellInsert.mp hc with rfl | hc
    · exact ⟨ha, hb⟩
    · exact (cellErase_wf h a).2 c hc

theorem mirrorWrite_wf {m : Memory} (h : m.wf) (a : Nat) (b : Byte) : (mirrorWrite m a b).wf := by
  unfold mirrorWrite
  split_ifs with ha
  · exact memWrite_wf h ha b
  · exact h

/-- Every store to the mirror keeps the canonical form. -/
theorem mirrorStore_wf {m : Memory} (h : m.wf) (a : Nat) (bs : List Byte) : (mirrorStore m a bs).wf := by
  induction bs generalizing m a with
  | nil => exact h
  | cons b bs ih => exact ih (mirrorWrite_wf h a b) (a + 1)

theorem memRead_eq_zero_of_lt {m : Memory} {a : Nat} (h : ∀ c ∈ m, a < c.1) : memRead m a = 0x00#8 := by
  induction m with
  | nil => rfl
  | cons c m ih =>
    obtain ⟨k, v⟩ := c
    have hk : k ≠ a := by have := h (k, v) (by simp); simp only at this; omega
    simp [memRead, hk, ih fun c hc => h c (by simp [hc])]

/-- Equal memories are equal lists: canonical memories that read alike are the same data. -/
theorem memory_ext {m n : Memory} (hm : m.wf) (hn : n.wf) (h : ∀ a, memRead m a = memRead n a) : m = n := by
  induction m generalizing n with
  | nil =>
    cases n with
    | nil => rfl
    | cons c n =>
      obtain ⟨k, v⟩ := c
      exact absurd (by simpa [memRead] using (h k).symm) (hn.2 (k, v) (by simp)).2
  | cons c m ih =>
    obtain ⟨k, v⟩ := c
    have hkv := (hm.2 (k, v) (by simp)).2
    obtain ⟨hm1, hm2⟩ := List.pairwise_cons.mp hm.1
    cases n with
    | nil => exact absurd (by simpa [memRead] using h k) hkv
    | cons e n =>
      obtain ⟨l, w⟩ := e
      have hlw := (hn.2 (l, w) (by simp)).2
      obtain ⟨hn1, hn2⟩ := List.pairwise_cons.mp hn.1
      have hkl : k = l := by
        rcases Nat.lt_trichotomy k l with hlt | heq | hlt
        · have := h k
          rw [memRead_eq_zero_of_lt (m := (l, w) :: n) (a := k) fun c hc => by
            rcases List.mem_cons.mp hc with rfl | hc
            · exact hlt
            · exact Nat.lt_trans hlt (hn1 c hc)] at this
          exact absurd (by simpa [memRead] using this) hkv
        · exact heq
        · have := h l
          rw [memRead_eq_zero_of_lt (m := (k, v) :: m) (a := l) fun c hc => by
            rcases List.mem_cons.mp hc with rfl | hc
            · exact hlt
            · exact Nat.lt_trans hlt (hm1 c hc)] at this
          exact absurd (by simpa [memRead] using this.symm) hlw
      subst hkl
      have hvw : v = w := by simpa [memRead] using h k
      subst hvw
      have := ih (n := n) ⟨hm2, fun c hc => hm.2 c (by simp [hc])⟩ ⟨hn2, fun c hc => hn.2 c (by simp [hc])⟩ fun a => by
        by_cases ha : k = a
        · subst ha
          rw [memRead_eq_zero_of_lt hm1, memRead_eq_zero_of_lt hn1]
        · simpa [memRead, ha] using h a
      rw [this]

/-! ### The pin levels -/

theorem levelRead_filter (l : Levels) (p q : PinId) :
    levelRead (l.filter fun c => c.1 ≠ p) q = if q = p then none else levelRead l q := by
  induction l with
  | nil => simp [levelRead]
  | cons c l ih =>
    obtain ⟨k, v⟩ := c
    by_cases hk : k = p
    · simp only [List.filter_cons, hk, ne_eq, not_true, decide_false, Bool.false_eq_true, if_false, levelRead] at ih ⊢
      rw [ih]
      split_ifs with h1 h2 <;> simp_all
    · simp only [List.filter_cons, hk, ne_eq, not_false_eq_true, decide_true, if_true, levelRead] at ih ⊢
      rw [ih]
      split_ifs with h1 h2 <;> simp_all

theorem levelRead_levelInsert {l : Levels} {p : PinId} (h : ∀ c ∈ l, c.1 ≠ p) (b : Level) (q : PinId) :
    levelRead (levelInsert p b l) q = if q = p then some b else levelRead l q := by
  induction l with
  | nil => simp [levelInsert, levelRead, eq_comm]
  | cons c l ih =>
    obtain ⟨k, v⟩ := c
    have hk : k ≠ p := h (k, v) (by simp)
    have ih := ih fun c hc => h c (by simp [hc])
    simp only [levelInsert]
    by_cases hq : q = p
    · subst hq
      rw [if_pos rfl] at ih ⊢
      split_ifs with h1 <;> simp [levelRead, hk, ih]
    · have hpq : p ≠ q := fun h => hq h.symm
      rw [if_neg hq] at ih ⊢
      split_ifs with h1 <;> simp [levelRead, hpq, ih]

/-- Read after write. -/
theorem levelRead_levelWrite (l : Levels) (p : PinId) (b : Level) (q : PinId) :
    levelRead (levelWrite l p b) q = if q = p then some b else levelRead l q := by
  unfold levelWrite
  rw [levelRead_levelInsert (by intro c hc; simpa using (List.mem_filter.mp hc).2), levelRead_filter]
  split_ifs <;> rfl

theorem mem_levelInsert {l : Levels} {p : PinId} {b : Level} {c : PinId × Level} :
    c ∈ levelInsert p b l ↔ c = (p, b) ∨ c ∈ l := by
  induction l with
  | nil => simp [levelInsert]
  | cons e l ih =>
    simp only [levelInsert]
    split_ifs
    · simp
    · simp [ih]; tauto

theorem levelInsert_wf {l : Levels} (h : l.wf) {p : PinId} (hp : ∀ c ∈ l, c.1 ≠ p) (b : Level) :
    (levelInsert p b l).wf := by
  induction l with
  | nil => simp [levelInsert]
  | cons e l ih =>
    obtain ⟨h1, h2⟩ := List.pairwise_cons.mp h
    have hne : e.1.toNat ≠ p.toNat := fun he => hp e (by simp) (BitVec.eq_of_toNat_eq he)
    simp only [levelInsert]
    split_ifs with hlt
    · refine List.pairwise_cons.mpr ⟨fun c hc => ?_, h⟩
      rcases List.mem_cons.mp hc with rfl | hc
      · exact hlt
      · exact Nat.lt_trans hlt (h1 c hc)
    · refine List.pairwise_cons.mpr ⟨fun c hc => ?_, ih h2 fun c hc => hp c (by simp [hc])⟩
      rcases mem_levelInsert.mp hc with rfl | hc
      · simp only at hlt ⊢; omega
      · exact h1 c hc

theorem levelWrite_wf {l : Levels} (h : l.wf) (p : PinId) (b : Level) : (levelWrite l p b).wf :=
  levelInsert_wf (h.filter _) (by intro c hc; simpa using (List.mem_filter.mp hc).2) b

theorem driveEvent_wf {l : Levels} (h : l.wf) (e : Event) : (driveEvent l e).wf := by
  cases e with
  | pin p b => exact levelWrite_wf h p b
  | wait => exact h

/-- Driving any events keeps the canonical form of the levels. -/
theorem driveAll_wf {l : Levels} (h : l.wf) (es : List Event) : (es.foldl driveEvent l).wf := by
  induction es generalizing l with
  | nil => exact h
  | cons e es ih => exact ih (driveEvent_wf h e)

end Sys2Proof.Machine
end

