-- ==== Sys2Proof/Laws/State.lean ====
section
/-! SUPPORT. The small lemmas of State: what each update leaves in each field. -/

namespace Sys2Proof.Machine

section SetDriver
variable (s : State) (d : Driver)
@[simp] theorem setDriver_mode : (setDriver s d).mode = .active d := rfl
@[simp] theorem setDriver_power : (setDriver s d).power = s.power := rfl
@[simp] theorem setDriver_gram : (setDriver s d).gram = s.gram := rfl
@[simp] theorem setDriver_lvl : (setDriver s d).lvl = s.lvl := rfl
@[simp] theorem setDriver_trace : (setDriver s d).trace = s.trace := rfl
@[simp] theorem setDriver_seq : (setDriver s d).seq = s.seq := rfl
@[simp] theorem setDriver_inbox : (setDriver s d).inbox = s.inbox := rfl
@[simp] theorem setDriver_font : (setDriver s d).font = s.font := rfl
@[simp] theorem setDriver_resets : (setDriver s d).resets = s.resets := rfl
@[simp] theorem setDriver_past : (setDriver s d).past = s.past := rfl
end SetDriver

section Emit
variable (s : State) (e : Event)
@[simp] theorem emit_mode : (emit s e).mode = s.mode := rfl
@[simp] theorem emit_power : (emit s e).power = s.power := rfl
@[simp] theorem emit_gram : (emit s e).gram = s.gram := rfl
@[simp] theorem emit_lvl : (emit s e).lvl = driveEvent s.lvl e := rfl
@[simp] theorem emit_trace : (emit s e).trace = s.trace ++ [e] := rfl
@[simp] theorem emit_seq : (emit s e).seq = s.seq := rfl
@[simp] theorem emit_inbox : (emit s e).inbox = s.inbox := rfl
@[simp] theorem emit_font : (emit s e).font = s.font := rfl
@[simp] theorem emit_resets : (emit s e).resets = s.resets := rfl
@[simp] theorem emit_past : (emit s e).past = s.past := rfl
end Emit

section HardReset
variable (s : State)
@[simp] theorem hardReset_mode : (hardReset s).mode = .uninitialized := rfl
@[simp] theorem hardReset_power : (hardReset s).power = true := rfl
@[simp] theorem hardReset_gram : (hardReset s).gram = [] := rfl
@[simp] theorem hardReset_lvl : (hardReset s).lvl = if running s then s.lvl else [] := rfl
@[simp] theorem hardReset_trace : (hardReset s).trace = if running s then s.trace else [] := rfl
@[simp] theorem hardReset_font : (hardReset s).font = s.font := rfl
@[simp] theorem hardReset_resets : (hardReset s).resets = s.resets + 1 := rfl
@[simp] theorem hardReset_past : (hardReset s).past = if running s then s.past else s.past ++ [s.trace] := rfl
@[simp] theorem hardReset_seq : (hardReset s).seq = .idle := rfl
@[simp] theorem hardReset_inbox : (hardReset s).inbox = s.inbox := rfl
end HardReset

@[simp] theorem running_iff (s : State) : running s = true ↔ s.seq ≠ .idle := by simp [running]

section EmitAll
variable (s : State) (es : List Event)
@[simp] theorem emitAll_mode : (emitAll s es).mode = s.mode := rfl
@[simp] theorem emitAll_power : (emitAll s es).power = s.power := rfl
@[simp] theorem emitAll_gram : (emitAll s es).gram = s.gram := rfl
@[simp] theorem emitAll_lvl : (emitAll s es).lvl = es.foldl driveEvent s.lvl := rfl
@[simp] theorem emitAll_trace : (emitAll s es).trace = s.trace ++ es := rfl
@[simp] theorem emitAll_seq : (emitAll s es).seq = s.seq := rfl
@[simp] theorem emitAll_inbox : (emitAll s es).inbox = s.inbox := rfl
@[simp] theorem emitAll_font : (emitAll s es).font = s.font := rfl
@[simp] theorem emitAll_resets : (emitAll s es).resets = s.resets := rfl
@[simp] theorem emitAll_past : (emitAll s es).past = s.past := rfl
end EmitAll

@[simp] theorem emitAll_nil (s : State) : emitAll s [] = s := by simp [emitAll]

/-- Emitting a list is emitting its events one after the other (40_transport R110). -/
theorem emitAll_eq_foldl (s : State) (es : List Event) : emitAll s es = es.foldl emit s := by
  induction es generalizing s with
  | nil => simp
  | cons e es ih => rw [List.foldl_cons, ← ih]; simp [emitAll, emit]

theorem emitAll_append (s : State) (es fs : List Event) : emitAll s (es ++ fs) = emitAll (emitAll s es) fs := by
  simp [emitAll_eq_foldl]

section WriteMemory
variable (s : State) (d : Driver) (pos : BitVec 4) (payload : List Byte)
@[simp] theorem writeMemory_mode : (writeMemory s d pos payload).mode = s.mode := by simp [writeMemory]
@[simp] theorem writeMemory_power : (writeMemory s d pos payload).power = s.power := by simp [writeMemory]
@[simp] theorem writeMemory_gram :
    (writeMemory s d pos payload).gram = mirrorStore s.gram pos.toNat payload := by simp [writeMemory]
@[simp] theorem writeMemory_lvl : (writeMemory s d pos payload).lvl =
    (memWriteSeq d pos payload s.power d.bright).foldl driveEvent s.lvl := by simp [writeMemory]
@[simp] theorem writeMemory_trace : (writeMemory s d pos payload).trace =
    s.trace ++ memWriteSeq d pos payload s.power d.bright := by simp [writeMemory]
@[simp] theorem writeMemory_seq : (writeMemory s d pos payload).seq = s.seq := by simp [writeMemory]
@[simp] theorem writeMemory_inbox : (writeMemory s d pos payload).inbox = s.inbox := by simp [writeMemory]
@[simp] theorem writeMemory_font : (writeMemory s d pos payload).font = s.font := by simp [writeMemory]
@[simp] theorem writeMemory_resets : (writeMemory s d pos payload).resets = s.resets := by simp [writeMemory]
@[simp] theorem writeMemory_past : (writeMemory s d pos payload).past = s.past := by simp [writeMemory]
end WriteMemory

/-- The guard, case by case. -/
theorem whenActive_uninitialized {s : State} (h : s.mode = .uninitialized) (k : Driver → State) :
    whenActive s k = .next s := by simp [whenActive, h]

theorem whenActive_active {s : State} {d : Driver} (h : s.mode = .active d) (k : Driver → State) :
    whenActive s k = .next (k d) := by simp [whenActive, h]

/-- Everything a guarded meaning can answer. -/
theorem whenActive_next {s t : State} {k : Driver → State} (h : whenActive s k = .next t) :
    (s.mode = .uninitialized ∧ t = s) ∨ ∃ d, s.mode = .active d ∧ t = k d := by
  cases hm : s.mode with
  | uninitialized => rw [whenActive_uninitialized hm] at h; cases h; exact .inl ⟨rfl, rfl⟩
  | active d => rw [whenActive_active hm] at h; cases h; exact .inr ⟨d, rfl, rfl⟩

end Sys2Proof.Machine
end

