-- ==== Sys2Proof/Laws/Exec.lean ====
section
/-! SUPPORT. What exec can do, said once: write registers, then emit events. -/

namespace Sys2Proof.Machine

/-- Register writes before the events of a command: everything but the mode, the power flag and the mirror is kept, and a
canonical mirror stays canonical. -/
structure WritesRegisters (s u : State) : Prop where
  lvl : u.lvl = s.lvl
  trace : u.trace = s.trace
  seq : u.seq = s.seq
  inbox : u.inbox = s.inbox
  font : u.font = s.font
  resets : u.resets = s.resets
  past : u.past = s.past
  gram : s.gram.wf → u.gram.wf

theorem WritesRegisters.refl (s : State) : WritesRegisters s s := ⟨rfl, rfl, rfl, rfl, rfl, rfl, rfl, id⟩

/-- The answer of a transmission: the registers are those before it. -/
theorem transmit_next {s t : State} {seq : Driver → List Event} (h : transmit s seq = .next t) :
    ∃ u es, WritesRegisters s u ∧ t = emitAll u es := by
  rcases whenActive_next h with ⟨_, rfl⟩ | ⟨d, _, rfl⟩
  · exact ⟨_, [], .refl _, (emitAll_nil _).symm⟩
  · exact ⟨s, seq d, .refl _, rfl⟩

theorem writeMemory_split (s : State) (d : Driver) (pos : BitVec 4) (payload : List Byte) :
    ∃ u es, WritesRegisters s u ∧ writeMemory s d pos payload = emitAll u es :=
  ⟨{ s with gram := mirrorStore s.gram pos.toNat payload }, _,
    ⟨rfl, rfl, rfl, rfl, rfl, rfl, rfl, fun h => mirrorStore_wf h pos.toNat payload⟩, rfl⟩

theorem showSegments_split (s : State) (d : Driver) (segs : List Byte) :
    ∃ u es, WritesRegisters s u ∧ showSegments s d segs = emitAll u es := by
  obtain ⟨u, es, hu, h⟩ := writeMemory_split { s with gram := mirrorStore s.gram 0 segs } d 0
    [memRead (mirrorStore s.gram 0 segs) 0, memRead (mirrorStore s.gram 0 segs) 1,
     memRead (mirrorStore s.gram 0 segs) 2, memRead (mirrorStore s.gram 0 segs) 3]
  exact ⟨u, es, ⟨hu.lvl, hu.trace, hu.seq, hu.inbox, hu.font, hu.resets, hu.past, fun hg => hu.gram (mirrorStore_wf hg 0 segs)⟩, h⟩

/-- Everything exec can do: if it answers a next state, that state is a register write followed by emitted events. -/
theorem exec_next {i : Instr} {s t : State} (h : exec i s = .next t) :
    ∃ u es, WritesRegisters s u ∧ t = emitAll u es := by
  cases i with
  | wData | wAddr _ | wDisp _ _ | tSetclk _ | tSetdat _ | tStart | tStop | tWbyte _ | tDatacmd | tDispctl _ _
  | tAddrwr _ _ _ => exact transmit_next h
  | tReserved _ | cReserved _ => cases h; exact ⟨s, [], .refl s, (emitAll_nil s).symm⟩
  | init clk dio a =>
    cases h
    exact ⟨{ s with mode := .active ⟨clk, dio, brightnessOperand a⟩, power := true, gram := [] }, _,
      ⟨rfl, rfl, rfl, rfl, rfl, rfl, rfl, fun _ => memory_nil_wf⟩, rfl⟩
  | setbri a =>
    rcases whenActive_next h with ⟨_, rfl⟩ | ⟨d, _, rfl⟩
    · exact ⟨_, [], .refl _, (emitAll_nil _).symm⟩
    · exact ⟨setDriver s { d with bright := brightnessOperand a }, _, ⟨rfl, rfl, rfl, rfl, rfl, rfl, rfl, id⟩, rfl⟩
  | setpwr a =>
    rcases whenActive_next h with ⟨_, rfl⟩ | ⟨d, _, rfl⟩
    · exact ⟨_, [], .refl _, (emitAll_nil _).symm⟩
    · exact ⟨{ s with power := onFlag a }, _, ⟨rfl, rfl, rfl, rfl, rfl, rfl, rfl, id⟩, rfl⟩
  | wrmem a len data =>
    rcases whenActive_next h with ⟨_, rfl⟩ | ⟨d, _, rfl⟩
    · exact ⟨_, [], .refl _, (emitAll_nil _).symm⟩
    · cases startPosition a with
      | none => exact ⟨_, [], .refl _, (emitAll_nil _).symm⟩
      | some pos => exact writeMemory_split s d pos _
  | clear =>
    rcases whenActive_next h with ⟨_, rfl⟩ | ⟨d, _, rfl⟩
    · exact ⟨_, [], .refl _, (emitAll_nil _).symm⟩
    · exact writeMemory_split s d _ _
  | refresh =>
    rcases whenActive_next h with ⟨_, rfl⟩ | ⟨d, _, rfl⟩
    · exact ⟨_, [], .refl _, (emitAll_nil _).symm⟩
    · exact writeMemory_split s d _ _
  | showint a =>
    rcases whenActive_next h with ⟨_, rfl⟩ | ⟨d, _, rfl⟩
    · exact ⟨_, [], .refl _, (emitAll_nil _).symm⟩
    · exact showSegments_split s d _
  | showflt1 a =>
    rcases whenActive_next h with ⟨_, rfl⟩ | ⟨d, _, rfl⟩
    · exact ⟨_, [], .refl _, (emitAll_nil _).symm⟩
    · exact showSegments_split s d _

/-- The same, read off the fields. -/
theorem exec_fields {i : Instr} {s t : State} (h : exec i s = .next t) :
    ∃ es, t.trace = s.trace ++ es ∧ t.lvl = es.foldl driveEvent s.lvl ∧ keepsControl s t ∧
      (s.gram.wf → t.gram.wf) := by
  obtain ⟨u, es, hu, rfl⟩ := exec_next h
  exact ⟨es, by simp [hu.trace], by simp [hu.lvl], ⟨by simp [hu.font], by simp [hu.seq], by simp [hu.inbox], by simp [hu.resets], by simp [hu.past]⟩, by simpa using hu.gram⟩

/-- The events a command appended, with the levels they leave. -/
theorem exec_newEvents {i : Instr} {s t : State} (h : exec i s = .next t) :
    t.trace = s.trace ++ newEvents s t ∧ t.lvl = (newEvents s t).foldl driveEvent s.lvl := by
  obtain ⟨es, h1, h2, -⟩ := exec_fields h
  have : newEvents s t = es := by simp [newEvents, h1]
  rw [this]; exact ⟨h1, h2⟩

/-- The result of exec, with the inputs still to come replaced. -/
def withInbox (o : Out) (inbox : List Input) : Out :=
  match o with
  | .next t => .next { t with inbox := inbox }
  | .fault f => .fault f
  | .refused r => .refused r

theorem whenActive_inbox (s : State) (inbox : List Input) (k l : Driver → State)
    (h : ∀ d, k d = { l d with inbox := inbox }) :
    whenActive { s with inbox := inbox } k = withInbox (whenActive s l) inbox := by
  unfold whenActive
  cases hm : s.mode with
  | uninitialized => simp [withInbox, hm]
  | active d => simp [withInbox, h]

/-- exec reads and writes no input: the block has "no internal queuing" (20_memory R62). -/
theorem exec_inbox (i : Instr) (s : State) (inbox : List Input) :
    exec i { s with inbox := inbox } = withInbox (exec i s) inbox := by
  cases i with
  | wData | wAddr _ | wDisp _ _ | tSetclk _ | tSetdat _ | tStart | tStop | tWbyte _ | tDatacmd | tDispctl _ _
  | tAddrwr _ _ _ => exact whenActive_inbox s inbox _ _ fun d => by simp [emitAll]
  | tReserved _ | cReserved _ => rfl
  | init clk dio a => simp [exec, execInit, withInbox, emitAll]
  | setbri a => exact whenActive_inbox s inbox _ _ fun d => by simp [emitAll, setDriver, dispInForce]
  | setpwr a => exact whenActive_inbox s inbox _ _ fun d => by simp [emitAll, dispInForce]
  | wrmem a len data =>
    exact whenActive_inbox s inbox _ _ fun d => by cases startPosition a <;> simp [emitAll, writeMemory]
  | clear => exact whenActive_inbox s inbox _ _ fun d => by simp [emitAll, writeMemory]
  | refresh => exact whenActive_inbox s inbox _ _ fun d => by simp [emitAll, writeMemory, refreshDigits]
  | showint a => exact whenActive_inbox s inbox _ _ fun d => by simp [emitAll, writeMemory, refreshDigits, showSegments]
  | showflt1 a => exact whenActive_inbox s inbox _ _ fun d => by simp [emitAll, writeMemory, refreshDigits, showSegments]

/-! ### Levels and the trace -/

/-- The last level driven, from a level known before. -/
theorem foldl_lastLevel (p : PinId) (es : List Event) (l : Option Level) :
    es.foldl (lastLevel p) l = (lastDriven p es).or l := by
  unfold lastDriven
  induction es generalizing l with
  | nil => simp
  | cons e es ih =>
    rw [List.foldl_cons, List.foldl_cons, ih, ih (lastLevel p none e)]
    cases e with
    | wait => simp [lastLevel]
    | pin q b =>
      by_cases hq : q = p
      · simp [lastLevel, hq]
      · simp [lastLevel, hq]

theorem lastDriven_append (p : PinId) (es fs : List Event) :
    lastDriven p (es ++ fs) = (lastDriven p fs).or (lastDriven p es) := by
  rw [lastDriven, List.foldl_append, foldl_lastLevel]; rfl

/-- The levels after driven events: the last level driven, or the level before. -/
theorem levelRead_driveAll (l : Levels) (es : List Event) (p : PinId) :
    levelRead (es.foldl driveEvent l) p = (lastDriven p es).or (levelRead l p) := by
  induction es generalizing l with
  | nil => simp [lastDriven]
  | cons e es ih =>
    rw [List.foldl_cons, ih, show e :: es = [e] ++ es from rfl, lastDriven_append]
    cases e with
    | wait => simp [driveEvent, lastDriven, lastLevel]
    | pin q b =>
      by_cases hq : q = p
      · subst hq; simp [driveEvent, levelRead_levelWrite, lastDriven, lastLevel]
      · have hp : p ≠ q := fun h => hq h.symm
        simp [driveEvent, levelRead_levelWrite, lastDriven, lastLevel, hq, hp]

end Sys2Proof.Machine
end

