-- ==== Sys2Proof/Laws/PerInstr.lean ====
section
/-! SUPPORT. The per-instruction family OwnRow: an instruction is encoded on its own port, and its opcode bits match exactly
its own row of the opcode table. -/

namespace Sys2Proof.Laws.OwnRow

/-- The encoding of `i` stands on its port and matches its row of spec/opcode_table.json and no other. -/
def Statement (i : Instr) : Prop :=
  (encode i).opcodeBits.1 = i.port ∧ (encode i).matching.map OpRow.mnemonic = [i.mnemonic]

/-- An encoding with known opcode bits: the rows are computed from those bits alone. -/
theorem of_bits {i : Instr} (bits : Port × Nat) (hb : (encode i).opcodeBits = bits) (hp : bits.1 = i.port)
    (hr : (rowsFor bits).map OpRow.mnemonic = [i.mnemonic]) : Statement i := by
  subst hb; exact ⟨hp, hr⟩

theorem wData : Statement .wData := by unfold Statement; decide
theorem wAddr (pos : BitVec 4) : Statement (.wAddr pos) := by unfold Statement; revert pos; decide
theorem wDisp (on : Bool) (bri : BitVec 3) : Statement (.wDisp on bri) := by unfold Statement; revert on bri; decide
theorem tSetclk (lvl : Level) : Statement (.tSetclk lvl) := by unfold Statement; revert lvl; decide
theorem tSetdat (lvl : Level) : Statement (.tSetdat lvl) := by unfold Statement; revert lvl; decide
theorem tStart : Statement .tStart := by unfold Statement; decide
theorem tStop : Statement .tStop := by unfold Statement; decide
theorem tWbyte (byte : Byte) : Statement (.tWbyte byte) :=
  of_bits (.tport, 4) rfl rfl (by decide : (rowsFor (.tport, 4)).map OpRow.mnemonic = ["T.WBYTE"])
theorem tDatacmd : Statement .tDatacmd := by unfold Statement; decide
theorem tDispctl (on : Bool) (bri : BitVec 3) : Statement (.tDispctl on bri) :=
  of_bits (.tport, 6) rfl rfl (by decide : (rowsFor (.tport, 6)).map OpRow.mnemonic = ["T.DISPCTL"])
theorem tAddrwr (pos : BitVec 4) (len : BitVec 5) (data : Vector Byte 16) : Statement (.tAddrwr pos len data) :=
  of_bits (.tport, 7) rfl rfl (by decide : (rowsFor (.tport, 7)).map OpRow.mnemonic = ["T.ADDRWR"])
theorem tReserved (low : BitVec 3) : Statement (.tReserved low) := by unfold Statement; revert low; decide
theorem init (clk dio : PinId) (a : Word) : Statement (.init clk dio a) :=
  of_bits (.cport, 0) rfl rfl (by decide : (rowsFor (.cport, 0)).map OpRow.mnemonic = ["INIT"])
theorem setbri (a : Word) : Statement (.setbri a) :=
  of_bits (.cport, 1) rfl rfl (by decide : (rowsFor (.cport, 1)).map OpRow.mnemonic = ["SETBRI"])
theorem setpwr (a : Word) : Statement (.setpwr a) :=
  of_bits (.cport, 2) rfl rfl (by decide : (rowsFor (.cport, 2)).map OpRow.mnemonic = ["SETPWR"])
theorem wrmem (a : Word) (len : BitVec 5) (data : Vector Word 16) : Statement (.wrmem a len data) :=
  of_bits (.cport, 3) rfl rfl (by decide : (rowsFor (.cport, 3)).map OpRow.mnemonic = ["WRMEM"])
theorem clear : Statement .clear := by unfold Statement; decide
theorem refresh : Statement .refresh := by unfold Statement; decide
theorem showint (a : Word) : Statement (.showint a) :=
  of_bits (.cport, 6) rfl rfl (by decide : (rowsFor (.cport, 6)).map OpRow.mnemonic = ["SHOWINT"])
theorem showflt1 (a : Word) : Statement (.showflt1 a) :=
  of_bits (.cport, 7) rfl rfl (by decide : (rowsFor (.cport, 7)).map OpRow.mnemonic = ["SHOWFLT1"])
theorem cReserved (low : BitVec 3) : Statement (.cReserved low) := by unfold Statement; revert low; decide

end Sys2Proof.Laws.OwnRow
end

