-- ==== Sys2Proof/Tests/Slice0.lean ====
section
/-! SUPPORT. Tests: expected values are those of spec/95_test_vectors.md and of the encodings in spec/30_encoding.md. Then
the witnesses: for every statement with hypotheses, a state and operands that meet all of them. -/

namespace Sys2Proof.Tests

open Sys2Proof Sys2Proof.Machine

/-! ### States and lanes -/

/-- Active on pins 1 and 2 with nothing in TRACE. -/
def active (power : Bool) (bright : BitVec 3) : State :=
  { State.reset with mode := .active { pinclk := 1, pindio := 2, bright := bright }, power := power }

/-- `active` after one data-command frame: a clean link (the frame begins from unknown levels, so nothing rests on it). -/
def linked (power : Bool) (bright : BitVec 3) : State :=
  emitAll (active power bright) (dataCmdSeq { pinclk := 1, pindio := 2, bright := bright })

/-- The driver of `active`. -/
def drv (bright : BitVec 3) : Driver := { pinclk := 1, pindio := 2, bright := bright }

/-- Lanes with the given first elements. -/
def lanes (a b c d : Word) : Vector Word 16 := #v[a, b, c, d, 0, 0, 0, 0, 0, 0, 0, 0, 0, 0, 0, 0]

/-- A property of the next state. -/
def next (o : Out) (p : State → Bool) : Bool :=
  match o with
  | .next s => p s
  | .fault _ => false
  | .refused _ => false

/-- The four digit bytes. -/
def digits (s : State) : List Byte := [memRead s.gram 0, memRead s.gram 1, memRead s.gram 2, memRead s.gram 3]

/-! ### Well-formedness: one ill-formed term for each check -/

theorem test_wf_wrmem_len : (Instr.wrmem 0 17 (lanes 0 0 0 0)).wf = false := by decide
theorem test_wf_addrwr_len : (Instr.tAddrwr 0 17 (Vector.replicate 16 0)).wf = false := by decide
theorem test_wf_wrmem_ok : (Instr.wrmem 0 16 (lanes 0 0 0 0)).wf = true := by decide

/-! ### Decoding: words written out from the encodings -/

/-- V-W1: the wire command bytes and bytes that match nothing. -/
theorem test_wire_bytes :
    decodeWire 0b01000000#8 = .instr .wData ∧ decodeWire 0b11000111#8 = .instr (.wAddr 7) ∧
    decodeWire 0b11001111#8 = .instr (.wAddr 15) ∧ decodeWire 0b10000101#8 = .instr (.wDisp false 5) ∧
    decodeWire 0b10001011#8 = .instr (.wDisp true 3) ∧ decodeWire 0x44#8 = .unknownFirstByte 0x44 ∧
    decodeWire 0x00#8 = .unknownFirstByte 0x00 ∧ decodeWire 0x90#8 = .unknownFirstByte 0x90 ∧
    decodeWire 0xFF#8 = .unknownFirstByte 0xFF := by decide

/-- R91, R92: the transport opcodes. -/
theorem test_tport_opcodes :
    decodeT { tIdle 0b0000#4 with lvl := true } = .tSetclk true ∧
    decodeT { tIdle 0b0001#4 with lvl := true } = .tSetdat true ∧
    decodeT (tIdle 0b0010#4) = .tStart ∧ decodeT (tIdle 0b0011#4) = .tStop ∧
    decodeT { tIdle 0b0100#4 with byte := 0xA5 } = .tWbyte 0xA5 ∧ decodeT (tIdle 0b0101#4) = .tDatacmd ∧
    decodeT { tIdle 0b0110#4 with on := true, bri := 5 } = .tDispctl true 5 ∧
    decodeT { tIdle 0b0111#4 with pos := 2, len := 1 } = .tAddrwr 2 1 (Vector.replicate 16 0) ∧
    decodeT (tIdle 0b1000#4) = .tReserved 0 ∧ decodeT (tIdle 0b1111#4) = .tReserved 7 := by decide

/-- R89, R90: the command opcodes. -/
theorem test_cport_opcodes :
    decodeC { cIdle 0b0000#4 with clk := 1, dio := 2, a := 5 } = .init 1 2 5 ∧
    decodeC { cIdle 0b0001#4 with a := 3 } = .setbri 3 ∧ decodeC { cIdle 0b0010#4 with a := 1 } = .setpwr 1 ∧
    decodeC { cIdle 0b0011#4 with a := 14, len := 4, data := lanes 1 2 3 4 } = .wrmem 14 4 (lanes 1 2 3 4) ∧
    decodeC (cIdle 0b0100#4) = .clear ∧ decodeC (cIdle 0b0101#4) = .refresh ∧
    decodeC { cIdle 0b0110#4 with a := 1234 } = .showint 1234 ∧
    decodeC { cIdle 0b0111#4 with a := 35 } = .showflt1 35 ∧
    decodeC (cIdle 0b1000#4) = .cReserved 0 ∧ decodeC (cIdle 0b1111#4) = .cReserved 7 := by decide

/-- The packed form, log 2: bits 3:0 the opcode, bits 7:4 the port, then the operands. -/
theorem test_table_words :
    decodeTableWord 8 0x40 = some .wData ∧ decodeTableWord 8 0xC0 = some (.wAddr 0) ∧
    decodeTableWord 8 0x80 = some (.wDisp false 0) ∧ decodeTableWord 8 0x00 = some (.init 0 0 0) ∧
    decodeTableWord 8 0x04 = some .clear ∧ decodeTableWord 8 0x08 = some (.cReserved 0) ∧
    decodeTableWord 8 0x12 = some .tStart ∧ decodeTableWord 32 0xA514 = some (.tWbyte 0x52) ∧
    decodeTableWord 16 0x2A06 = some (.showint 42) ∧ decodeTableWord 8 0x90 = none := by decide

/-- The opcode table's rows of one layer do not overlap: every 4-bit opcode and every byte matches at most one row. -/
theorem test_table_disjoint :
    (∀ n : Fin 16, (rowsFor (.tport, n)).length = 1 ∧ (rowsFor (.cport, n)).length = 1) ∧
    ∀ n : Fin 256, (rowsFor (.wire8, n)).length ≤ 1 := by decide +kernel

/-! ### The Transport: V-T1, V-T2, V-T3 -/

/-- V-T1, T.WBYTE 0xA5: bits 1,0,1,0,0,1,0,1. -/
theorem test_wbyte_bits : wireBits 0xA5#8 = [true, false, true, false, false, true, false, true] := by decide

/-- V-T1, T.STOP: `D0 w C1 w D1 w`. -/
theorem test_stop_events : next (exec .tStop (active true 5)) (fun s =>
    decide (s.trace = [.pin 2 false, .wait, .pin 1 true, .wait, .pin 2 true, .wait])) = true := by decide

/-- V-T1, T.START: `D0 w C0 w`. -/
theorem test_start_events : next (exec .tStart (active true 5)) (fun s =>
    decide (s.trace = [.pin 2 false, .wait, .pin 1 false, .wait])) = true := by decide

/-- V-T2, the sampled bits of `F[0xC3, 0xA5]`. -/
theorem test_sampled_frame : sampled 1 2 (frameSeq (drv 5) [0xC3, 0xA5]) =
    ([1, 1, 0, 0, 0, 0, 1, 1, 1, 0, 1, 0, 0, 1, 0, 1, 0].map fun n : Nat => some (n == 1)) := by decide

/-- P5: a hand-built frame reads back as `F[0xC3, 0xA5]`. -/
theorem test_frames_hand_built :
    frames 1 2 (startSeq (drv 5) ++ byteSeq (drv 5) 0xC3 ++ byteSeq (drv 5) 0xA5 ++ stopSeq (drv 5)) =
      [[0xC3#8, 0xA5#8]] := by decide +kernel

/-- V-T3, T.ADDRWR pos 2, one byte: `F[0xC2, 0x80]`, 106 events. -/
theorem test_addrwr_frame :
    next (exec (.tAddrwr 2 1 #v[0x80, 0, 0, 0, 0, 0, 0, 0, 0, 0, 0, 0, 0, 0, 0, 0]) (active true 5)) (fun s =>
      decide (frames 1 2 s.trace = [[0xC2#8, 0x80#8]] ∧ s.trace.length = 106)) = true := by decide +kernel

/-- V-T3, T.DISPCTL on, brightness 5: `F[0x8D]`. -/
theorem test_dispctl_frame : next (exec (.tDispctl true 5) (active false 0)) (fun s =>
    decide (frames 1 2 s.trace = [[0x8D#8]])) = true := by decide

/-- The wire command W.ADDR 3 is the byte 0xC3 on the wire (V-W1). -/
theorem test_wire_addr : next (exec (.wAddr 3) (active true 0)) (fun s =>
    decide (sampled 1 2 (startSeq (drv 0) ++ s.trace) =
      ([1, 1, 0, 0, 0, 0, 1, 1].map fun n : Nat => some (n == 1)))) = true := by decide

/-! ### The commands: V-C1 to V-C4 -/

/-- V-C1: INIT 1, 2, 9 and INIT 1, 2, -1 clamp. -/
theorem test_init_clamps :
    next (exec (.init 1 2 9) State.reset) (fun s => decide (s.mode = .active (drv 7) ∧ s.power = true ∧ s.gram = [])) = true ∧
    next (exec (.init 1 2 (-1)) State.reset) (fun s => decide (s.mode = .active (drv 0))) = true := by decide

/-- V-C1: the first twelve events of INIT 1, 2, 5 with HS_WAIT true, and the events without it. -/
theorem test_init_events :
    ((handshakeSeq true (drv 5) ++ dataCmdSeq (drv 5)).take 12 =
      [.pin 1 false, .wait, .pin 2 false, .wait, .pin 2 false, .wait, .pin 1 false, .wait, .pin 2 false, .wait,
       .pin 1 true, .wait]) ∧ handshakeSeq false (drv 5) = [.pin 1 false, .pin 2 false] := by decide

/-- V-C2: SETBRI -2147483648 and 100 with the display off. -/
theorem test_setbri_off :
    next (exec (.setbri 0x80000000#32) (active false 5)) (fun s =>
      decide (s.mode = .active (drv 0) ∧ frames 1 2 s.trace = [[0x40#8], [0x80#8]])) = true ∧
    next (exec (.setbri 100) (active false 5)) (fun s =>
      decide (s.mode = .active (drv 7) ∧ frames 1 2 s.trace = [[0x40#8], [0x87#8]])) = true := by decide +kernel

/-- V-C3: SETPWR 0 and SETPWR -1. -/
theorem test_setpwr :
    next (exec (.setpwr 0) (active true 5)) (fun s => decide (s.power = false ∧ frames 1 2 s.trace = [[0x85#8]])) = true ∧
    next (exec (.setpwr (-1)) (active true 5)) (fun s =>
      decide (s.power = true ∧ frames 1 2 s.trace = [[0x8D#8]])) = true := by decide

/-- V-C4: WRMEM 14, [1, 2, 3, 4]: two mirror bytes, four on the wire. -/
theorem test_wrmem_past_end : next (exec (.wrmem 14 4 (lanes 1 2 3 4)) (active true 5)) (fun s =>
    decide (s.gram = [(14, 1#8), (15, 2#8)] ∧
      frames 1 2 s.trace = [[0x40#8], [0xCE#8, 1#8, 2#8, 3#8, 4#8], [0x8D#8]])) = true := by decide +kernel

/-- V-C4: WRMEM 15, [0x1FF] masks; WRMEM 16 and WRMEM -1 are no-ops. -/
theorem test_wrmem_bounds :
    next (exec (.wrmem 15 1 (lanes 0x1FF 0 0 0)) (active true 5)) (fun s => decide (s.gram = [(15, 0xFF#8)])) = true ∧
    next (exec (.wrmem 16 1 (lanes 0xFF 0 0 0)) (active true 5)) (fun s => decide (s = active true 5)) = true ∧
    next (exec (.wrmem (-1) 1 (lanes 0xFF 0 0 0)) (active true 5)) (fun s => decide (s = active true 5)) = true := by decide

/-- V-C4: CLEAR and REFRESH. -/
theorem test_clear_refresh :
    next (exec .clear { active true 5 with gram := [(0, 6#8), (3, 1#8), (9, 7#8)] }) (fun s => decide (s.gram = [(9, 7#8)])) = true ∧
    next (exec .refresh { active true 5 with gram := [(2, 0xCF#8), (3, 0x6D#8)] }) (fun s =>
      decide (frames 1 2 s.trace = [[0x40#8], [0xC0#8, 0#8, 0#8, 0xCF#8, 0x6D#8], [0x8D#8]])) = true := by decide +kernel

/-- P3: SHOWINT before INIT is a no-op. -/
theorem test_noop_before_init : next (exec (.showint 5) State.reset) (fun s => decide (s = State.reset)) = true := by decide

/-! ### The renderers: V-R1, V-R2 -/

theorem test_showint_12345 : next (exec (.showint 12345) (active true 5)) (fun s =>
    decide (digits s = [0x06#8, 0x5B#8, 0x4F#8, 0x66#8])) = true := by decide
theorem test_showint_most_negative : next (exec (.showint 0x80000000#32) (active true 5)) (fun s =>
    decide (digits s = [0x40#8, 0x5B#8, 0x06#8, 0x66#8])) = true := by decide
theorem test_showflt1_minus_half : next (exec (.showflt1 (-5)) (active true 5)) (fun s =>
    decide (digits s = [0x00#8, 0x40#8, 0xBF#8, 0x6D#8])) = true := by decide
theorem test_showflt1_most_negative : next (exec (.showflt1 0x80000000#32) (active true 5)) (fun s =>
    decide (digits s = [0x4F#8, 0x7D#8, 0xE6#8, 0x7F#8])) = true := by decide

/-- V-E1: characters outside the table. -/
theorem test_font_absent : fontLookup defaultFont 0x41 = 0#8 ∧ fontLookup defaultFont 0x2E = 0#8 := by decide

/-- V-R3: 2.25 and -2.25 round away from zero; 3e9 is refused. -/
theorem test_front_end :
    formCommand (.showFloat1 (.fraction 225 100)) = some (.showflt1 23) ∧
    formCommand (.showFloat1 (.fraction (-225) 100)) = some (.showflt1 (-23)) ∧
    formCommand (.showInteger (.fraction (-37) 10)) = some (.showint (-3)) ∧
    formCommand (.showInteger (.fraction 3000000000 1)) = none ∧
    formCommand (.initCall 1 2 none) = some (.init 1 2 5) := by decide

/-- R95, R115: the Transport's calls; a wider or a negative value is masked (43_renderers R194(d)). -/
theorem test_transport_calls :
    formCommand (.setClock true) = some (.tSetclk true) ∧ formCommand (.setData false) = some (.tSetdat false) ∧
    formCommand .startFrame = some .tStart ∧ formCommand .stopFrame = some .tStop ∧
    formCommand (.writeByte 0x1FF) = some (.tWbyte 0xFF) ∧ formCommand (.writeByte (-256)) = some (.tWbyte 0x00) := by
  decide

/-! ### The step -/

/-- A word the host places runs as the first instruction after reset: INIT 0, 0, 0. -/
theorem test_fetch_word : next (step (State.reset.withFetchWord 8 0)) (fun s =>
    decide (s.mode = .active { pinclk := 0, pindio := 0, bright := 0 })) = true := by decide

/-- A wire byte that is no command is refused by name. -/
theorem test_unknown_wire_byte :
    step { State.reset with inbox := [.command (.wire 0x44)] } = .refused (.unknownFirstByte 0x44) := by rfl

/-- Fifteen events into SETPWR 0 (a start of four, then eleven of the byte 0x85): SR holds 0x85 and BC is 1 (10_state R30). -/
theorem test_shift_registers :
    next (steps 16 { active true 5 with inbox := [.start (encode (.setpwr 0))] }) (fun s =>
      decide (shiftRegisters s = some (0x85#8, 1#3))) = true ∧
    shiftRegisters (active true 5) = none := by decide +kernel

/-- A reset two events into SETPWR leaves those two events (70_reset R245). -/
theorem test_reset_cuts :
    next (steps 4 { active true 5 with inbox := [.start (encode (.setpwr 0)), .advance, .advance, .reset] }) (fun s =>
      decide (s.mode = .uninitialized ∧ s.power = true ∧ s.trace = [.pin 2 false, .wait])) = true := by decide

/-- A reset of the block alone, then INIT's events: the device keeps the byte stored before it, at a new control (R68). -/
theorem test_device_keeps_over_reset :
    (match deviceView 1 2 (emitAll (hardReset (emitAll (linked true 5) (memWriteSeq (drv 5) 2 [0x80] true 5)))
        (handshakeSeq true (drv 3) ++ dataCmdSeq (drv 3) ++ dispCtlSeq (drv 3) true 3)) with
      | .regs r => decide (displayAt r 2 = some 0x80#8 ∧ r.control = some (true, 3))
      | .noMeaning => false) = true := by decide +kernel

/-- A reset between commands empties TRACE and opens the levels again (10_state R35). -/
theorem test_reset_between_commands :
    next (step { linked true 5 with lvl := [(1, true)], inbox := [.reset] }) (fun s =>
      decide (s.mode = .uninitialized ∧ s.trace = [] ∧ s.lvl = [] ∧ s.seq = .idle)) = true := by decide

/-! ### The device view -/

/-- The device on pins 1 and 2 after events that follow a clean link. -/
def viewAfter (es : List Event) : DeviceView := deviceView 1 2 (emitAll (linked true 5) es)

/-- F[0xC2, 0x80] bracketed is stored (V-T3); without its display-control frame, or without its data command, it has no meaning
(U1). -/
theorem test_view_bracket :
    (match viewAfter (memWriteSeq (drv 5) 2 [0x80] true 5) with
      | .regs r => decide (displayAt r 2 = some 0x80#8 ∧ r.control = some (true, 5))
      | .noMeaning => false) = true ∧
    viewAfter (dataCmdSeq (drv 5) ++ addrWriteSeq (drv 5) 2 [0x80]) = .noMeaning ∧
    viewAfter (addrWriteSeq (drv 5) 2 [0x80] ++ dispCtlSeq (drv 5) true 5) = .noMeaning := by decide +kernel

/-- A frame part-way (R58), a byte with no start and a stop with no start (R252) have no meaning; nor does a frame cut in its
start and followed by INIT's handshake, with its waits or without (U15). -/
theorem test_view_framing :
    viewAfter (startSeq (drv 5) ++ byteSeq (drv 5) 0x40) = .noMeaning ∧ viewAfter (byteSeq (drv 5) 0x40) = .noMeaning ∧
    viewAfter (stopSeq (drv 5)) = .noMeaning ∧
    viewAfter ((startSeq (drv 5)).take 2 ++ handshakeSeq true (drv 5) ++ dataCmdSeq (drv 5)) = .noMeaning ∧
    viewAfter ((startSeq (drv 5)).take 2 ++ handshakeSeq false (drv 5) ++ dataCmdSeq (drv 5)) = .noMeaning := by
  decide +kernel

/-- After INIT's events the control is known and the write mode is not (R257, U14). -/
theorem test_view_after_init :
    (match deviceView 1 2 (emitAll State.reset (handshakeSeq true (drv 5) ++ dataCmdSeq (drv 5) ++ dispCtlSeq (drv 5) true 5)) with
      | .regs r => decide (r.control = some (true, 5) ∧ r.autoIncrement = false)
      | .noMeaning => false) = true := by decide +kernel

/-! ### Witnesses: every hypothesis of every statement is met somewhere -/

theorem witness_StepRunsTheDecodedInstruction :
    let s := { State.reset with inbox := [.command (encode (.init 1 2 5))] }
    s.seq = .idle ∧ s.inbox = [.command (encode (.init 1 2 5))] ∧ decode (encode (.init 1 2 5)) = .instr (.init 1 2 5) ∧
      ∃ t, step s = .next t := ⟨rfl, rfl, rfl, _, rfl⟩

theorem witness_FetchWordRunsNext : decodeTableWord 8 0x12 = some .tStart := by decide

theorem witness_BusyBlockTakesNoRequest :
    let s := { active true 5 with seq := .running (encode .clear) 1 [.wait], inbox := [.command (encode .clear)] }
    s.seq = .running (encode .clear) 1 [.wait] ∧
      (s.inbox = [] ∨ ∃ q rest, s.inbox = .command q :: rest ∨ s.inbox = .start q :: rest) :=
  ⟨rfl, .inr ⟨_, _, .inl rfl⟩⟩

theorem witness_IdleBlockWaits : State.reset.seq = .idle ∧ State.reset.inbox = [] := ⟨rfl, rfl⟩

theorem witness_EventByEventIsTheWholeCommand :
    let s := { active true 5 with inbox := [.start (encode (.setpwr 0))] }
    s.seq = .idle ∧ s.inbox = [.start (encode (.setpwr 0))] ∧ decode (encode (.setpwr 0)) = .instr (.setpwr 0) ∧
      ∃ t, exec (.setpwr 0) { s with inbox := [] } = .next t ∧ 0 < (newEvents s t).length :=
  ⟨rfl, rfl, rfl, _, rfl, by decide⟩

theorem witness_ResetCutsACommandShort :
    let s : State :=
      { active true 5 with inbox := .start (encode (.setpwr 0)) :: (List.replicate 3 .advance ++ [.reset]) }
    (∃ rest, ({ s with inbox := [.reset] } : State).inbox = .reset :: rest) ∧ Seq.running (encode .clear) 1 [.wait] ≠ .idle ∧
      s.seq = .idle ∧
      s.inbox = .start (encode (.setpwr 0)) :: (List.replicate 3 .advance ++ [.reset]) ∧
      decode (encode (.setpwr 0)) = .instr (.setpwr 0) ∧ ∃ t, exec (.setpwr 0) { s with inbox := [] } = .next t ∧ 3 < (newEvents s t).length :=
  ⟨⟨_, rfl⟩, by decide, rfl, rfl, rfl, _, rfl, by decide⟩

theorem witness_StepsStopOnlyOnUnknownWireBytes :
    ∃ x, step { State.reset with inbox := [.start (.wire 0x00)] } = .refused x := ⟨_, rfl⟩

/-- The clauses of SilentNoopsAreExactlyTheListed at their boundaries: both positions next to the range, a reserved opcode of
each port, an uninitialized block, and an instruction that is no no-op. -/
theorem witness_SilentNoopsAreExactlyTheListed :
    (Instr.wrmem 16 0 (lanes 0 0 0 0)).port ≠ .wire8 ∧ ¬ (0 ≤ (16#32).toInt ∧ (16#32).toInt < 16) ∧
    ¬ (0 ≤ (-1#32).toInt ∧ (-1#32).toInt < 16) ∧ exec (.cReserved 7) (active true 5) = .next (active true 5) ∧
    exec (.tReserved 0) State.reset = .next State.reset ∧ exec .clear State.reset = .next State.reset ∧
    (∃ t, exec (.wrmem 15 0 (lanes 0 0 0 0)) (active true 5) = .next t ∧ t.trace ≠ []) :=
  ⟨by decide, by decide, by decide, rfl, rfl, rfl, _, rfl, by decide⟩

theorem witness_UninitializedIgnoresAllButInit :
    Instr.refresh.port = .cport ∧ State.reset.mode = .uninitialized ∧ ∀ clk dio a, Instr.refresh ≠ .init clk dio a :=
  ⟨rfl, rfl, fun _ _ _ h => by cases h⟩

theorem witness_ReservedOpcodesAreNoops :
    8 ≤ (cIdle 0b1000#4).op.toNat ∧ 8 ≤ (cIdle 0b1111#4).op.toNat ∧ 8 ≤ (tIdle 0b1000#4).op.toNat := by decide

/-- The hypothesis of every result statement: an Active state (SetClockAndDataDriveOnePin, StartDrivesBothLow,
StopRaisesClockThenData, WriteByteShiftsLeastSignificantFirst, OneByteTransactions, AddressWriteFrame,
WireCommandsAreSerialised, SetBrightnessClampsAndReissues, SetPowerReissuesDisplayControl, WriteMemoryStoresAndSends,
ClearIsAWriteOfFourZeros, RefreshResendsTheFirstFour, ShowIntegerStoresFirstFour, ShowTenthsStoresLastFour); each opcode is
some bundle's, and a sampler can stand at either clock level. -/
theorem witness_active_state :
    (active true 5).mode = .active (drv 5) ∧ (drv 5).pinclk ≠ (drv 5).pindio ∧
    (∀ op : BitVec 4, (cIdle op).op = op ∧ (tIdle op).op = op) ∧
    (Sampler.mk (some false) none).clock = some false ∧ (Sampler.mk (some true) none).clock = some true ∧
    (active true 5).gram.wf := ⟨rfl, by decide, fun _ => ⟨rfl, rfl⟩, rfl, rfl, by decide⟩

/-- AddressWriteFrame: the last stated length and the first length past it. -/
theorem witness_AddressWriteFrame : (tIdle 0b0111#4).op = 0b0111#4 ∧ (16#5).toNat ≤ 16 ∧ ¬ (17#5).toNat ≤ 16 := by decide

/-- WriteMemoryStoresAndSends, clause by clause: start 15 is in range, 16 and -1 are not; with start 14 and length 4 element 1
is mirrored at position 15, element 2 is not; positions 13 and 16 are outside. RefreshResendsTheFirstFour: lanes that hold
the four digit bytes. -/
theorem witness_WriteMemoryStoresAndSends :
    (15 < 16 ∧ (15#32).toInt = (15 : Nat)) ∧ ¬ (0 ≤ (16#32).toInt ∧ (16#32).toInt < 16) ∧
    ¬ (0 ≤ (-1#32).toInt ∧ (-1#32).toInt < 16) ∧
    (1 < min (4#5).toNat 16 ∧ 14 + 1 < 16 ∧ (lanes 1 2 3 4).toList[1]? = some 2#32) ∧ ¬ (14 + 2 < 16) ∧
    (13 < 14 ∨ 14 + min (4#5).toNat 16 ≤ 13 ∨ 16 ≤ 13) ∧ (16 < 14 ∨ 14 + min (4#5).toNat 16 ≤ 16 ∨ 16 ≤ 16) ∧
    (∀ k, k < 4 → (lanes 0 0 0 0).toList[k]? = some ((memRead (active true 5).gram k).zeroExtend 32)) := by decide

theorem witness_ShiftRegistersFollowTheByte :
    let s := { active true 5 with inbox := [.start (encode (.tWbyte 0xA5))] }
    s.mode = .active (drv 5) ∧ s.seq = .idle ∧ s.inbox = [.start (encode (.tWbyte 0xA5))] ∧
      decode (encode (.tWbyte 0xA5)) = .instr (.tWbyte 0xA5) := ⟨rfl, rfl, rfl, rfl⟩

theorem witness_TransportOnlyEmits : exec .tStart State.reset = .next State.reset ∧ Instr.tStart.port ≠ .cport ∧ ∃ t, exec .tStart (active true 5) = .next t ∧
    Event.pin 1 false ∈ newEvents (active true 5) t := ⟨rfl, by decide, _, rfl, by decide⟩

theorem witness_clean_trace : linkClean 1 2 (linked true 5) ∧
    deviceView 1 2 (linked true 5) = deviceStart ∧ (linked true 5).mode = .active (drv 5) := by
  refine ⟨⟨by decide, by decide, ?_⟩, by decide, rfl⟩
  exact ⟨_, (by decide : deviceView 1 2 (linked true 5) = deviceStart)⟩

/-- The empty trace stands outside a frame (FramesAreDecodedBack, CommandsSendTheseFrames). -/
theorem witness_outside_frame :
    (drv 5).pinclk ≠ (drv 5).pindio ∧ (rxRun 1 2 (active true 5).trace).pos = .outside 0 := ⟨by decide, rfl⟩

theorem witness_LevelsAfterEachOperation :
    ∃ t, exec (.tSetclk true) (active true 5) = .next t ∧ t.mode = .active (drv 5) ∧ t.trace ≠ (active true 5).trace :=
  ⟨_, rfl, rfl, by decide⟩

theorem witness_EventCounts : (active true 5).mode = .active (drv 5) ∧ ∃ t, exec .tStop (active true 5) = .next t :=
  ⟨rfl, _, rfl⟩

theorem witness_EveryPinWriteIsFollowedByAWait :
    (∃ t, exec (.init 1 2 5) State.reset = .next t) ∧ ∃ t, exec .tStop (active true 5) = .next t := ⟨⟨_, rfl⟩, _, rfl⟩

theorem witness_DisplayControlCarriesTheValuesInForce :
    (Instr.setpwr 0).port = .cport ∧ ∃ t, exec (.setpwr 0) (active true 5) = .next t ∧ t.trace ≠ (active true 5).trace :=
  ⟨rfl, _, rfl, by decide⟩

theorem witness_CommandsLeaveTheRestAlone :
    (active true 5).mode = .active (drv 5) ∧ ∃ t, exec (.wrmem 15 2 (lanes 1 2 0 0)) (active true 5) = .next t :=
  ⟨rfl, _, rfl⟩

/-- All four mode pairs of OnlyInitBindsAndOnlyResetUnbinds occur. -/
theorem witness_OnlyInitBindsAndOnlyResetUnbinds :
    next (step State.reset) (fun t => decide (t.mode = .uninitialized)) = true ∧
    next (step { State.reset with inbox := [.command (encode (.init 1 2 5))] }) (fun t => decide (t.mode = .active (drv 5))) = true ∧
    next (step { active true 5 with inbox := [.reset] }) (fun t => decide (t.mode = .uninitialized)) = true ∧
    next (step { active true 5 with inbox := [.start (encode (.init 1 2 3))] }) (fun t => decide (t.mode = .active (drv 3))) = true := by
  decide

theorem witness_CommandsAreIdempotentInState :
    (Instr.setpwr 0).port = .cport ∧ ∃ t u, exec (.setpwr 0) (active true 5) = .next t ∧ exec (.setpwr 0) t = .next u :=
  ⟨rfl, _, _, rfl, rfl⟩

/-- A state with both bound pins high. -/
theorem witness_CommandsKeepTheBusIdle :
    idleHigh { active true 5 with lvl := [(1, true), (2, true)] } ∧
    ∃ t, exec (.setpwr 0) { active true 5 with lvl := [(1, true), (2, true)] } = .next t := by
  refine ⟨fun d h => ?_, _, rfl⟩
  cases h
  exact ⟨rfl, rfl⟩

theorem witness_CommandsSendTheseFrames :
    (∃ t, exec .clear (active true 5) = .next t ∧ t.mode = .active (drv 5)) ∧ (active true 5).mode ≠ .uninitialized ∧
    ∃ t, exec (.init 1 2 5) State.reset = .next t ∧ t.mode = .active (drv 5) :=
  ⟨⟨_, rfl, rfl⟩, by decide, _, rfl, rfl⟩

/-- MemoryWritesReachTheDevice: a write that just fits, and the four digits (the clean link is witness_clean_trace). -/
theorem witness_MemoryWritesReachTheDevice :
    (∃ t, exec (.wrmem 14 2 (lanes 1 2 0 0)) (linked true 5) = .next t) ∧ 14 + 2 ≤ 16 ∧
    (14 < 16 ∧ (14#32).toInt = (14 : Nat) ∧ 2 = min (2#5).toNat 16) ∧ (∃ t, exec .clear (linked true 5) = .next t) ∧
    linkClean 1 2 (linked true 5) :=
  ⟨⟨_, rfl⟩, by decide, by decide, ⟨_, rfl⟩, witness_clean_trace.1⟩

theorem witness_PowerAndBrightnessKeepTheDisplay :
    (∃ r, deviceView 1 2 { linked true 5 with inbox := [.reset] } = .regs r) ∧ (linked true 5).seq = .idle ∧
      linkClean 1 2 (linked true 5) ∧ (∃ r, deviceView 1 2 (linked true 5) = .regs r) ∧
      (∃ a, Instr.setbri 3 = .setpwr a ∨ Instr.setbri 3 = .setbri a) ∧ ∃ t, exec (.setbri 3) (linked true 5) = .next t :=
  ⟨witness_clean_trace.1.2.2, rfl, witness_clean_trace.1, witness_clean_trace.1.2.2, ⟨3, .inr rfl⟩, _, rfl⟩

theorem witness_InitDoesNotClearTheDevice :
    (∃ r, deviceView 1 2 State.reset = .regs r) ∧ ∃ t, exec (.init 1 2 5) State.reset = .next t :=
  ⟨⟨_, rfl⟩, _, rfl⟩

theorem witness_FontTableValues : defaultFont.admissible = true ∧ (∃ t, step State.reset = .next t) ∧
    ¬ (0x30 ≤ (0x41#8).toNat ∧ (0x41#8).toNat ≤ 0x39) ∧ 0x41#8 ≠ 0x2D#8 ∧ 0x41#8 ≠ 0x20#8 :=
  ⟨by decide, ⟨_, rfl⟩, by decide⟩

/-- The ends of the ranges of SignShownOrDropped, and a negative number for DecimalStringsAreDecimal. -/
theorem witness_SignShownOrDropped : (-999 ≤ (-999 : Int) ∧ (-999 : Int) < 0) ∧ (-999 ≤ (-1 : Int) ∧ (-1 : Int) < 0) ∧
    (-1000 : Int) ≤ -1000 := by decide

theorem witness_ThePointStandsAtPositionTwo :
    (active true 5).mode = .active (drv 5) ∧ (active true 5).font.admissible = true ∧
      ∃ t, exec (.showflt1 35) (active true 5) = .next t := ⟨rfl, by decide, _, rfl⟩

/-- FrontEndRounding and FrontEndFormsOrRefuses: a tie, the last number that fits and the first that does not. -/
theorem witness_FrontEnd :
    2 * |(5 : Int) - roundHazFrac 5 2 * 2| = 2 ∧ roundHazFrac 5 2 = 3 ∧ truncFrac 2147483647 1 < 2 ^ 31 ∧
      ¬ truncFrac 2147483648 1 < 2 ^ 31 ∧ -2 ^ 31 ≤ truncFrac (-2147483648) 1 ∧ truncFrac (-2147483649) 1 < -2 ^ 31 ∧
      (-2 ^ 31 ≤ (-2147483648 : Int) ∧ (2147483647 : Int) < 2 ^ 31) :=
  ⟨by rw [show roundHazFrac 5 2 = 3 by decide]; norm_num, by decide⟩

theorem witness_StepKeepsTheInvariant : Inv (active true 5) ∧ ∃ t, step (active true 5) = .next t :=
  ⟨⟨by decide, List.Pairwise.nil, fun _ => rfl, (fun _ _ _ h => by cases h), by decide⟩, _, rfl⟩

/-- Both cases of TraceOnlyGrows: a step that keeps TRACE, and a reset between commands that empties it. -/
theorem witness_TraceOnlyGrows : (∃ t, step State.reset = .next t) ∧
    ∃ t, step { active true 5 with trace := [.wait], inbox := [.reset] } = .next t ∧ t.trace = [] ∧ t.past = [[.wait]] :=
  ⟨⟨_, rfl⟩, _, rfl, rfl, rfl⟩

/-- Two states that differ in LVL and TRACE only. -/
theorem witness_NothingReadsLevelsOrTrace :
    let u := { active true 5 with lvl := [(1, true)], trace := [.wait] }
    u.mode = (active true 5).mode ∧ u.power = (active true 5).power ∧ u.gram = (active true 5).gram ∧
      u.font = (active true 5).font ∧ ∃ t, exec .refresh (active true 5) = .next t := ⟨rfl, rfl, rfl, rfl, _, rfl⟩

/-- Two states that differ at position 4 only. -/
theorem witness_NothingReadsUpperPositions :
    let u := { active true 5 with gram := [(4, 1#8)] }
    u.mode = (active true 5).mode ∧ u.power = (active true 5).power ∧ u.font = (active true 5).font ∧
      (∀ p, p < 4 → memRead u.gram p = memRead (active true 5).gram p) ∧
      ∃ t v, exec .refresh (active true 5) = .next t ∧ exec .refresh u = .next v :=
  ⟨rfl, rfl, rfl, by decide, _, _, rfl, rfl⟩

end Sys2Proof.Tests
end

/-! The front end's rounding (00_scope R10): both operations are odd in the numerator, so each bound is shown for a
numerator that is not negative and carried over to the others by the change of sign. -/

namespace Sys2Proof.Machine

theorem truncFrac_neg (num : Int) (den : Nat) : truncFrac (-num) den = -truncFrac num den :=
  Int.neg_tdiv num den

theorem truncFrac_bounds_of_nonneg {num : Int} {den : Nat} (hden : 0 < den) (hnum : 0 ≤ num) :
    0 ≤ truncFrac num den * den ∧ truncFrac num den * den ≤ num ∧ num < truncFrac num den * den + den := by
  have hdivision : truncFrac num den * den + num.tmod den = num := Int.tdiv_mul_add_tmod num den
  have hrem_nonneg : 0 ≤ num.tmod den := Int.tmod_nonneg _ hnum
  have hrem_lt : num.tmod den < den := Int.tmod_lt_of_pos num (by omega)
  have hquot : 0 ≤ truncFrac num den := Int.tdiv_nonneg hnum (by omega)
  exact ⟨by positivity, by omega, by omega⟩

/-- The multiple of `den` that `trunc` picks is not farther from zero than the number and less than `den` away from it. -/
theorem truncFrac_nearest_toward_zero {den : Nat} (hden : 0 < den) (num : Int) :
    |truncFrac num den * den| ≤ |num| ∧ |num - truncFrac num den * den| < den := by
  wlog hnum : 0 ≤ num generalizing num
  · have hopp := this (-num) (by omega)
    rwa [truncFrac_neg, neg_mul, abs_neg, abs_neg, neg_sub_neg, abs_sub_comm] at hopp
  obtain ⟨hnonneg, hle, hlt⟩ := truncFrac_bounds_of_nonneg hden hnum
  rw [abs_of_nonneg hnonneg, abs_of_nonneg hnum, abs_of_nonneg (by omega)]
  exact ⟨hle, by omega⟩

/-- `round_haz(q) = trunc(q + 1/2)` for `q >= 0`, over the denominator `2 * den`. -/
theorem roundHazFrac_of_nonneg {num : Int} (den : Nat) (hnum : 0 ≤ num) :
    roundHazFrac num den = truncFrac (2 * num + den) (2 * den) := by
  simp [roundHazFrac, truncFrac, hnum]

theorem roundHazFrac_of_neg {num : Int} (den : Nat) (hnum : num < 0) :
    roundHazFrac num den = -roundHazFrac (-num) den := by
  rw [roundHazFrac_of_nonneg den (by omega : 0 ≤ -num)]
  simp [roundHazFrac, truncFrac, not_le.mpr hnum]

/-- Doubled, the multiple of `den` that `round_haz` picks lies in the interval from `2 * num - den`, excluded, to
`2 * num + den`, included: on a tie it is the upper end. -/
theorem roundHazFrac_bounds_of_nonneg {num : Int} {den : Nat} (hden : 0 < den) (hnum : 0 ≤ num) :
    2 * num - den < 2 * (roundHazFrac num den * den) ∧ 2 * (roundHazFrac num den * den) ≤ 2 * num + den := by
  obtain ⟨-, hle, hlt⟩ := truncFrac_bounds_of_nonneg (num := 2 * num + den) (den := 2 * den) (by omega) (by omega)
  rw [← roundHazFrac_of_nonneg den hnum, Nat.cast_mul, Nat.cast_ofNat, mul_left_comm] at hle hlt
  exact ⟨by omega, hle⟩

/-- The multiple of `den` that `round_haz` picks is at most half of `den` away from the number, and on a tie the one
farther from zero. -/
theorem roundHazFrac_nearest_ties_away {den : Nat} (hden : 0 < den) (num : Int) :
    2 * |num - roundHazFrac num den * den| ≤ den ∧
      (2 * |num - roundHazFrac num den * den| = den → |num| < |roundHazFrac num den * den|) := by
  wlog hnum : 0 ≤ num generalizing num
  · have hopp := this (-num) (by omega)
    rw [roundHazFrac_of_neg den (not_le.mp hnum), neg_mul, abs_neg, sub_neg_eq_add]
    rwa [← abs_neg (-num - _), neg_sub, sub_neg_eq_add, add_comm, abs_neg] at hopp
  obtain ⟨hlt, hle⟩ := roundHazFrac_bounds_of_nonneg hden hnum
  generalize roundHazFrac num den * den = multiple at hlt hle ⊢
  constructor
  · have hdist : |2 * (num - multiple)| ≤ den := abs_le.mpr ⟨by omega, by omega⟩
    rwa [abs_mul, abs_two] at hdist
  · intro htie
    rw [abs_of_nonneg hnum]
    refine lt_of_lt_of_le ?_ (le_abs_self multiple)
    obtain habove | hbelow := lt_or_ge num multiple
    · exact habove
    · rw [abs_of_nonneg (by omega)] at htie
      omega

/-- Settles O53: the nearest-integer bounds of `trunc` and of `round_haz`, each by the change of sign. -/
theorem frontEndRounding : Obligations.FrontEndRounding := by
  intro num den hden
  exact ⟨truncFrac_nearest_toward_zero hden num, roundHazFrac_nearest_ties_away hden num⟩

end Sys2Proof.Machine

/-! What a step can do, said once: a reset, the time for one event, a request run at once, or a request taken to be run event
by event. What every step keeps follows from these four cases. -/

namespace Sys2Proof.Machine

/-! ### The sequencer, case by case -/

theorem runRequest_instr {r : Request} {i : Instr} (h : decode r = .instr i) (s : State) :
    runRequest r s = exec i s := by
  simp [runRequest, h]

/-- A request that is answered with a next state is one that decodes. -/
theorem runRequest_next {r : Request} {s t : State} (h : runRequest r s = .next t) :
    ∃ i, decode r = .instr i ∧ exec i s = .next t := by
  cases hd : decode r with
  | instr i => exact ⟨i, rfl, by rwa [runRequest_instr hd] at h⟩
  | unknownFirstByte b => simp [runRequest, hd] at h

/-- A command taken in `s` to be run event by event, where run at once it ends in `t`: the registers of `t`, and the events
still to come (42_display R165). -/
def startedState (r : Request) (s t : State) : State :=
  { t with trace := s.trace, lvl := s.lvl, seq := seqAt r 0 (newEvents s t) }

theorem startRequest_instr {r : Request} {i : Instr} {s t : State} (hd : decode r = .instr i)
    (h : exec i s = .next t) : startRequest r s = .next (startedState r s t) := by
  simp [startRequest, runRequest_instr hd, h, startedState]

theorem startRequest_next {r : Request} {s u : State} (h : startRequest r s = .next u) :
    ∃ i t, decode r = .instr i ∧ exec i s = .next t ∧ u = startedState r s t := by
  cases hr : runRequest r s with
  | next t =>
    obtain ⟨i, hd, ht⟩ := runRequest_next hr
    rw [startRequest_instr hd ht] at h
    cases h
    exact ⟨i, t, hd, ht, rfl⟩
  | fault f => simp [startRequest, hr] at h
  | refused x => simp [startRequest, hr] at h

@[simp] theorem seqAt_nil (r : Request) (k : Nat) : seqAt r k [] = .idle := rfl

theorem seqAt_of_ne_nil (r : Request) (k : Nat) {es : List Event} (h : es ≠ []) : seqAt r k es = .running r k es := by
  cases es with
  | nil => exact absurd rfl h
  | cons e es => rfl

/-- SEQ formed by `seqAt` has an event to emit while it runs. -/
theorem seqAt_running {r q : Request} {k j : Nat} {es todo : List Event} (h : seqAt r k es = .running q j todo) :
    todo ≠ [] := by
  cases es with
  | nil => cases h
  | cons e es => cases h; exact List.cons_ne_nil e es

theorem emitNext_idle {s : State} (h : s.seq = .idle) : emitNext s = s := by
  simp [emitNext, h]

theorem emitNext_running_nil {s : State} {r : Request} {k : Nat} (h : s.seq = .running r k []) :
    emitNext s = { s with seq := .idle } := by
  simp [emitNext, h]

theorem emitNext_running_cons {s : State} {r : Request} {k : Nat} {e : Event} {todo : List Event}
    (h : s.seq = .running r k (e :: todo)) : emitNext s = { emit s e with seq := seqAt r (k + 1) todo } := by
  simp [emitNext, h]

/-- The time for one event appends to TRACE and leaves the earlier traces alone. -/
theorem emitNext_trace (s : State) : s.trace <+: (emitNext s).trace ∧ (emitNext s).past = s.past := by
  cases h : s.seq with
  | idle => rw [emitNext_idle h]; exact ⟨List.prefix_rfl, rfl⟩
  | running r k todo =>
    cases todo with
    | nil => rw [emitNext_running_nil h]; exact ⟨List.prefix_rfl, rfl⟩
    | cons e todo => rw [emitNext_running_cons h]; exact ⟨List.prefix_append _ _, rfl⟩

@[simp] theorem ready_iff (s : State) : ready s = true ↔ s.seq = .idle := by simp [ready]

theorem step_of_no_input {s : State} (h : s.inbox = []) : step s = .next (emitNext s) := by
  simp [step, serve, h]

theorem step_of_start {s : State} {r : Request} {rest : List Input} (hseq : s.seq = .idle)
    (h : s.inbox = .start r :: rest) : step s = startRequest r { s with inbox := rest } := by
  simp [step, serve, h, hseq]

/-- Everything a step that answers a next state can have done, with the inputs that are left. Time for one event passes where
an `advance` is taken, where nothing waits, and where a request waits for the running command. -/
inductive Served (s : State) : State → Prop where
  | reset (rest : List Input) (input : s.inbox = .reset :: rest) : Served s (hardReset { s with inbox := rest })
  | event (rest : List Input) (input : s.inbox = .advance :: rest ∨ s.inbox = rest) :
      Served s (emitNext { s with inbox := rest })
  | ran (rest : List Input) (r : Request) (i : Instr) (t : State) (idle : s.seq = .idle)
      (input : s.inbox = .command r :: rest) (decoded : decode r = .instr i)
      (answer : exec i { s with inbox := rest } = .next t) : Served s t
  | started (rest : List Input) (r : Request) (i : Instr) (t : State) (idle : s.seq = .idle)
      (input : s.inbox = .start r :: rest) (decoded : decode r = .instr i)
      (answer : exec i { s with inbox := rest } = .next t) : Served s (startedState r { s with inbox := rest } t)

theorem step_next {s t : State} (h : step s = .next t) : Served s t := by
  simp only [step, serve] at h
  split at h
  next => cases h; exact .event s.inbox (.inr rfl)
  next rest hin => cases h; exact .reset rest hin
  next rest hin => cases h; exact .event rest (.inl hin)
  next r rest hin =>
    split at h
    next hready =>
      obtain ⟨i, hd, ht⟩ := runRequest_next h
      exact .ran rest r i t ((ready_iff s).mp hready) hin hd ht
    next => cases h; exact .event s.inbox (.inr rfl)
  next r rest hin =>
    split at h
    next hready =>
      obtain ⟨i, u, hd, hu, rfl⟩ := startRequest_next h
      exact .started rest r i u ((ready_iff s).mp hready) hin hd hu
    next => cases h; exact .event s.inbox (.inr rfl)

/-! ### The invariant of every step -/

/-- Emitting events drives the levels and the trace alike. -/
theorem inv_emitAll {s : State} (h : Inv s) (es : List Event) : Inv (emitAll s es) := by
  obtain ⟨hgram, hlvl, hagree, hbusy, hfont⟩ := h
  refine ⟨hgram, driveAll_wf hlvl es, fun p => ?_, hbusy, hfont⟩
  rw [emitAll_lvl, emitAll_trace, levelRead_driveAll, lastDriven_append, hagree p]

theorem inv_with_seq {s : State} (h : Inv s) {q : Seq} (hq : ∀ r k todo, q = .running r k todo → todo ≠ []) :
    Inv { s with seq := q } := by
  obtain ⟨hgram, hlvl, hagree, -, hfont⟩ := h
  exact ⟨hgram, hlvl, hagree, hq, hfont⟩

theorem WritesRegisters.inv {s u : State} (hu : WritesRegisters s u) (h : Inv s) : Inv u := by
  obtain ⟨hgram, hlvl, hagree, hbusy, hfont⟩ := h
  refine ⟨hu.gram hgram, ?_, fun p => ?_, fun r k todo => ?_, ?_⟩
  · rwa [hu.lvl]
  · rw [hu.lvl, hu.trace]; exact hagree p
  · rw [hu.seq]; exact hbusy r k todo
  · rwa [hu.font]

theorem exec_inv {i : Instr} {s t : State} (h : exec i s = .next t) (hs : Inv s) : Inv t := by
  obtain ⟨u, es, hu, rfl⟩ := exec_next h
  exact inv_emitAll (hu.inv hs) es

/-- Taking a command is its register writes alone: no event is emitted yet. -/
theorem startedState_inv {i : Instr} {s t : State} (r : Request) (h : exec i s = .next t) (hs : Inv s) :
    Inv (startedState r s t) := by
  obtain ⟨hgram, -, -, -, hfont⟩ := exec_inv h hs
  obtain ⟨-, hlvl, hagree, -, -⟩ := hs
  exact ⟨hgram, hlvl, hagree, fun _ _ _ => seqAt_running, hfont⟩

theorem emitNext_inv {s : State} (hs : Inv s) : Inv (emitNext s) := by
  cases h : s.seq with
  | idle => rwa [emitNext_idle h]
  | running r k todo =>
    cases todo with
    | nil => rw [emitNext_running_nil h]; exact inv_with_seq hs (fun _ _ _ => nofun)
    | cons e todo =>
      rw [emitNext_running_cons h]
      exact inv_with_seq (inv_emitAll hs [e]) (fun _ _ _ => seqAt_running)

/-- A reset clears the mirror and SEQ; the levels and the trace are kept together or emptied together. -/
theorem hardReset_inv {s : State} (hs : Inv s) : Inv (hardReset s) := by
  obtain ⟨-, hlvl, hagree, -, hfont⟩ := hs
  refine ⟨memory_nil_wf, ?_, fun p => ?_, fun _ _ _ => nofun, hfont⟩
  · rw [hardReset_lvl]; split
    · exact hlvl
    · exact List.Pairwise.nil
  · rw [hardReset_lvl, hardReset_trace]; split
    · exact hagree p
    · rfl

/-- Settles O57: each of the four cases of a step keeps the invariant; none of its clauses is about the inputs. -/
theorem stepKeepsTheInvariant : Obligations.StepKeepsTheInvariant := by
  intro s t hs hstep
  have hinbox (rest : List Input) : Inv { s with inbox := rest } := hs
  cases step_next hstep with
  | reset rest => exact hardReset_inv (hinbox rest)
  | event rest => exact emitNext_inv (hinbox rest)
  | ran rest _ i _ _ _ _ answer => exact exec_inv answer (hinbox rest)
  | started rest r i _ _ _ _ answer => exact startedState_inv r answer (hinbox rest)

/-- Settles O56: nothing is stored, driven or running after power-up, and the default font table is admissible. -/
theorem resetMeetsTheInvariant : Obligations.ResetMeetsTheInvariant :=
  ⟨memory_nil_wf, List.Pairwise.nil, fun _ => rfl, fun _ _ _ => nofun, by decide⟩

/-- Settles O55: every field of `State.reset`, the levels read through the empty list of levels. -/
theorem resetState : Obligations.ResetState :=
  ⟨rfl, rfl, memRead_nil, rfl, fun _ => rfl, rfl, rfl⟩

/-- Settles O9: no input is the time for one event, and an idle block has none to emit. -/
theorem idleBlockWaits : Obligations.IdleBlockWaits := by
  intro s hseq hin
  rw [step_of_no_input hin, emitNext_idle hseq]

/-- Settles O58: only the reset between commands shortens TRACE. -/
theorem traceOnlyGrows : Obligations.TraceOnlyGrows := by
  intro s t hstep
  cases step_next hstep with
  | reset rest input =>
    by_cases hidle : s.seq = .idle
    · exact .inr ⟨hidle, ⟨rest, input⟩, by simp [hidle], by simp [hidle]⟩
    · exact .inl (by simp [hidle])
  | event rest => exact .inl (emitNext_trace { s with inbox := rest })
  | ran rest _ i _ _ _ _ answer =>
    obtain ⟨es, htrace, -, ⟨-, -, -, -, hpast⟩, -⟩ := exec_fields answer
    exact .inl ⟨⟨es, htrace.symm⟩, hpast⟩
  | started rest r i u _ _ _ answer =>
    obtain ⟨es, -, -, ⟨-, -, -, -, hpast⟩, -⟩ := exec_fields answer
    exact .inl ⟨List.prefix_rfl, hpast⟩

end Sys2Proof.Machine

/-! A command run event by event (10_state R29). -/

namespace Sys2Proof.Machine

@[simp] theorem steps_zero (s : State) : steps 0 s = .next s := rfl

theorem steps_succ {s t : State} (h : step s = .next t) (n : Nat) : steps (n + 1) s = steps n t := by
  change Sys2Proof.core.run (n + 1) s = _
  simp only [Host.Core.run, Host.Check.core_step, h]
  rfl

/-- With no input waiting, `k` steps of a running command emit its next `k` events. -/
theorem steps_running {s : State} {r : Request} {index : Nat} {es : List Event} (hin : s.inbox = [])
    (hseq : s.seq = seqAt r index es) {k : Nat} (hk : k ≤ es.length) :
    steps k s = .next { emitAll s (es.take k) with seq := seqAt r (index + k) (es.drop k) } := by
  induction k generalizing s index es with
  | zero => simp [← hseq]
  | succ k ih =>
    cases es with
    | nil => simp at hk
    | cons e es =>
      have hstep : step s = .next { emit s e with seq := seqAt r (index + 1) es } := by
        rw [step_of_no_input hin, emitNext_running_cons hseq]
      rw [steps_succ hstep, ih (s := { emit s e with seq := seqAt r (index + 1) es }) hin rfl (by simpa using hk)]
      simp [emitAll, emit, Nat.add_assoc, Nat.add_comm 1]

/-- A command taken by an idle block: one step takes it, and `k` more emit its first `k` events. -/
theorem steps_started {s t : State} {r : Request} {i : Instr} (hseq : s.seq = .idle) (hin : s.inbox = [.start r])
    (hd : decode r = .instr i) (ht : exec i { s with inbox := [] } = .next t) {k : Nat}
    (hk : k ≤ (newEvents s t).length) :
    steps (1 + k) s = .next { emitAll (startedState r s t) ((newEvents s t).take k) with
      seq := seqAt r k ((newEvents s t).drop k) } := by
  have hstep : step s = .next (startedState r s t) := by
    rw [step_of_start hseq hin, startRequest_instr hd ht]; rfl
  obtain ⟨-, -, -, ⟨-, -, hinbox, -, -⟩, -⟩ := exec_fields ht
  rw [Nat.add_comm, steps_succ hstep, steps_running (s := startedState r s t) hinbox rfl hk, Nat.zero_add]

/-- The state a command run at once ends in, put together from the started one and its events. -/
theorem emitAll_startedState {i : Instr} {s t : State} (r : Request) (h : exec i s = .next t) (hidle : s.seq = .idle) :
    { emitAll (startedState r s t) (newEvents s t) with seq := .idle } = t := by
  obtain ⟨htrace, hlvl⟩ := exec_newEvents h
  obtain ⟨-, -, -, ⟨-, hseq, -, -, -⟩, -⟩ := exec_fields h
  rw [hidle] at hseq
  simp [emitAll, startedState, ← htrace, ← hlvl, ← hseq]

/-- Settles O10: the steps after the one that takes the command emit its events one by one. -/
theorem eventByEventIsTheWholeCommand : Obligations.EventByEventIsTheWholeCommand := by
  intro s t r i hseq hin hd ht
  constructor
  · rw [steps_started hseq hin hd ht le_rfl, List.take_length, List.drop_length, seqAt_nil]
    exact congrArg _ (emitAll_startedState (s := { s with inbox := [] }) r ht hseq)
  · intro k hk
    refine ⟨_, steps_started hseq hin hd ht hk.le, rfl, rfl, rfl, rfl, rfl, ?_⟩
    exact seqAt_of_ne_nil r k (by simpa using hk)

/-! ### The shift register and the bit counter (10_state R30) -/

/-- The bits of a byte in wire order give it back. -/
theorem byteOfBits_wireBits (v : Byte) : byteOfBits (wireBits v) = v := by
  revert v; decide

theorem leadingBits_byteSeq (d : Driver) (v : Byte) : leadingBits 8 (byteSeq d v) = some (wireBits v) := rfl

theorem shiftingAt_byteSeq (d : Driver) (v : Byte) {k : Nat} (hk : k < 48) :
    shiftingAt 0 (byteSeq d v) k = some (v, BitVec.ofNat 3 (k / 6)) := by
  have hbits := leadingBits_byteSeq d v
  cases hes : byteSeq d v with
  | nil => rw [hes] at hbits; cases hbits
  | cons e es =>
    rw [hes] at hbits
    simp [shiftingAt, hbits, hk, byteOfBits_wireBits]

/-- The events of the running command that TRACE has, and those still to come, are all its events. -/
theorem shiftRegisters_running {u : State} {r : Request} {trace es : List Event} {k : Nat} (hk : k ≤ es.length)
    (htrace : u.trace = trace ++ es.take k) (hseq : u.seq = .running r k (es.drop k)) :
    shiftRegisters u = shiftingAt 0 es k := by
  simp [shiftRegisters, hseq, htrace, hk]

/-- Settles O21: after `k` events, `TRACE`'s last `k` and those to come are the 48 events of the byte. -/
theorem shiftRegistersFollowTheByte : Obligations.ShiftRegistersFollowTheByte := by
  refine ⟨fun s h => by simp [shiftRegisters, h], fun s d r v hmode hseq hin hd k hk => ?_⟩
  have ht : exec (.tWbyte v) { s with inbox := [] } = .next (emitAll { s with inbox := [] } (byteSeq d v)) :=
    whenActive_active (s := { s with inbox := [] }) hmode _
  have hnew : newEvents s (emitAll { s with inbox := [] } (byteSeq d v)) = byteSeq d v := by simp [newEvents]
  obtain ⟨-, hprefix⟩ := eventByEventIsTheWholeCommand s _ r _ hseq hin hd ht
  rw [hnew] at hprefix
  obtain ⟨u, hu, htrace, -, -, -, -, hrun⟩ := hprefix k hk
  exact ⟨u, hu, (shiftRegisters_running hk.le htrace hrun).trans (shiftingAt_byteSeq d v hk)⟩

end Sys2Proof.Machine

/-! What instructions read (10_state R25, R27, R28): two states that agree on the registers, and on the mirror as far as a
relation says, go through the same register writes and the same events. -/

namespace Sys2Proof.Machine

/-- A relation of two mirrors that tells the four digits and that INIT's clearing and every store keep. -/
structure DigitRelation (Q : Memory → Memory → Prop) : Prop where
  cleared : Q [] []
  store : ∀ {m n}, Q m n → ∀ a bs, Q (mirrorStore m a bs) (mirrorStore n a bs)
  digits : ∀ {m n}, Q m n → ∀ p, p < 4 → memRead n p = memRead m p

/-- Two states with the same mode, power and font table, and related mirrors. -/
structure Related (Q : Memory → Memory → Prop) (s u : State) : Prop where
  mode : u.mode = s.mode
  power : u.power = s.power
  font : u.font = s.font
  gram : Q s.gram u.gram

/-- From `s` to `t` and from `u` to `v` the same was done: register writes to related states, then the same events. -/
def SameEffect (Q : Memory → Memory → Prop) (s u t v : State) : Prop :=
  ∃ s' u' es, Related Q s' u' ∧ s'.trace = s.trace ∧ u'.trace = u.trace ∧ t = emitAll s' es ∧ v = emitAll u' es

theorem SameEffect.related {Q : Memory → Memory → Prop} {s u t v : State} (h : SameEffect Q s u t v) :
    Related Q t v ∧ newEvents u v = newEvents s t := by
  obtain ⟨s', u', es, ⟨hmode, hpower, hfont, hgram⟩, hs, hu, rfl, rfl⟩ := h
  exact ⟨⟨hmode, hpower, hfont, hgram⟩, by simp [newEvents, hs, hu]⟩

section TwoStates
variable {Q : Memory → Memory → Prop} {s u : State}

theorem Related.sameEffect_emitAll (h : Related Q s u) (es : List Event) :
    SameEffect Q s u (emitAll s es) (emitAll u es) :=
  ⟨s, u, es, h, rfl, rfl, rfl, rfl⟩

theorem Related.sameEffect_refl (h : Related Q s u) : SameEffect Q s u s u := by
  simpa using h.sameEffect_emitAll []

/-- The guard decides alike in two states with the same mode. -/
theorem Related.whenActive_same (h : Related Q s u) {t : State} {k l : Driver → State}
    (hk : ∀ d, SameEffect Q s u (k d) (l d)) (ht : whenActive s k = .next t) :
    ∃ v, whenActive u l = .next v ∧ SameEffect Q s u t v := by
  rcases whenActive_next ht with ⟨hm, rfl⟩ | ⟨d, hm, rfl⟩
  · exact ⟨u, whenActive_uninitialized (h.mode.trans hm) l, h.sameEffect_refl⟩
  · exact ⟨l d, whenActive_active (h.mode.trans hm) l, hk d⟩

theorem Related.transmit_same (h : Related Q s u) {t : State} {seq : Driver → List Event} (ht : transmit s seq = .next t) :
    ∃ v, transmit u seq = .next v ∧ SameEffect Q s u t v :=
  h.whenActive_same (fun d => h.sameEffect_emitAll (seq d)) ht

theorem Related.setDriver_related (h : Related Q s u) (d : Driver) : Related Q (setDriver s d) (setDriver u d) :=
  ⟨rfl, h.power, h.font, h.gram⟩

theorem Related.dispInForce_eq (h : Related Q s u) (d : Driver) : dispInForce u d = dispInForce s d := by
  rw [dispInForce, h.power]; rfl

theorem Related.mirrorStore_related (hQ : DigitRelation Q) (h : Related Q s u) (a : Nat) (bs : List Byte) :
    Related Q { s with gram := mirrorStore s.gram a bs } { u with gram := mirrorStore u.gram a bs } :=
  ⟨h.mode, h.power, h.font, hQ.store h.gram a bs⟩

theorem Related.writeMemory_same (hQ : DigitRelation Q) (h : Related Q s u) (d : Driver) (pos : BitVec 4)
    (payload : List Byte) : SameEffect Q s u (writeMemory s d pos payload) (writeMemory u d pos payload) :=
  ⟨_, _, _, h.mirrorStore_related hQ pos.toNat payload, rfl, rfl, rfl, by rw [writeMemory, h.power]⟩

theorem Related.refreshDigits_same (hQ : DigitRelation Q) (h : Related Q s u) (d : Driver) :
    SameEffect Q s u (refreshDigits s d) (refreshDigits u d) := by
  have hdigits := hQ.digits h.gram
  rw [refreshDigits, refreshDigits, hdigits 0 (by omega), hdigits 1 (by omega), hdigits 2 (by omega),
    hdigits 3 (by omega)]
  exact h.writeMemory_same hQ d 0 _

theorem Related.showSegments_same (hQ : DigitRelation Q) (h : Related Q s u) (d : Driver) (segs : List Byte) :
    SameEffect Q s u (showSegments s d segs) (showSegments u d segs) :=
  (h.mirrorStore_related hQ 0 segs).refreshDigits_same hQ d

/-- Every instruction does the same in two related states. -/
theorem Related.exec_same (hQ : DigitRelation Q) (h : Related Q s u) {i : Instr} {t : State} (ht : exec i s = .next t) :
    ∃ v, exec i u = .next v ∧ SameEffect Q s u t v := by
  cases i with
  | wData | wAddr _ | wDisp _ _ | tSetclk _ | tSetdat _ | tStart | tStop | tWbyte _ | tDatacmd | tDispctl _ _
  | tAddrwr _ _ _ => exact h.transmit_same ht
  | tReserved _ | cReserved _ => cases ht; exact ⟨u, rfl, h.sameEffect_refl⟩
  | init clk dio a =>
    cases ht
    have hnew (d : Driver) : Related Q { s with mode := .active d, power := true, gram := [] }
        { u with mode := .active d, power := true, gram := [] } := ⟨rfl, rfl, h.font, hQ.cleared⟩
    exact ⟨_, rfl, (hnew _).sameEffect_emitAll _⟩
  | setbri a =>
    refine h.whenActive_same (fun d => ?_) ht
    simp only [h.dispInForce_eq]
    exact (h.setDriver_related _).sameEffect_emitAll _
  | setpwr a =>
    have hnew : Related Q { s with power := onFlag a } { u with power := onFlag a } := ⟨h.mode, rfl, h.font, h.gram⟩
    exact h.whenActive_same (fun d => hnew.sameEffect_emitAll (dispInForce _ d)) ht
  | wrmem a len data =>
    refine h.whenActive_same (fun d => ?_) ht
    cases startPosition a with
    | none => exact h.sameEffect_refl
    | some pos => exact h.writeMemory_same hQ d pos _
  | clear => exact h.whenActive_same (fun d => h.writeMemory_same hQ d 0 _) ht
  | refresh => exact h.whenActive_same (fun d => h.refreshDigits_same hQ d) ht
  | showint a =>
    refine h.whenActive_same (fun d => ?_) ht
    rw [h.font]
    exact h.showSegments_same hQ d _
  | showflt1 a =>
    refine h.whenActive_same (fun d => ?_) ht
    rw [h.font]
    exact h.showSegments_same hQ d _

end TwoStates

theorem digitRelation_eq : DigitRelation (· = ·) where
  cleared := rfl
  store h a bs := by rw [h]
  digits h p _ := by rw [h]

/-- Two mirrors that read alike at the four digits. -/
def sameDigits (m n : Memory) : Prop := ∀ p, p < 4 → memRead n p = memRead m p

theorem digitRelation_sameDigits : DigitRelation sameDigits where
  cleared _ _ := rfl
  store h a bs p hp := by rw [memRead_mirrorStore, memRead_mirrorStore, h p hp]
  digits h := h

/-- Settles O59: LVL, TRACE and SEQ are no part of what is related, the mirrors are equal. -/
theorem nothingReadsLevelsOrTrace : Obligations.NothingReadsLevelsOrTrace := by
  intro i s t u hmode hpower hgram hfont ht
  obtain ⟨v, hv, heffect⟩ := Related.exec_same digitRelation_eq ⟨hmode, hpower, hfont, hgram.symm⟩ ht
  obtain ⟨hrel, hnew⟩ := heffect.related
  exact ⟨v, hv, hrel.mode, hrel.power, hrel.gram.symm, hnew⟩

/-- Settles O60: the mirrors are related at positions 0 to 3 only. -/
theorem nothingReadsUpperPositions : Obligations.NothingReadsUpperPositions := by
  intro i s t u v hmode hpower hfont hdigits ht hv
  obtain ⟨v', hv', heffect⟩ := Related.exec_same digitRelation_sameDigits ⟨hmode, hpower, hfont, hdigits⟩ ht
  cases hv.symm.trans hv'
  obtain ⟨hrel, hnew⟩ := heffect.related
  exact ⟨hrel.mode, hrel.power, hrel.gram, hnew⟩

end Sys2Proof.Machine

/-! The wire bytes (20_memory R60). -/

namespace Sys2Proof.Machine

/-- Settles O2: the decoder and the ranges give the same answer at each of the 256 bytes. -/
theorem wireBytesClassified : Obligations.WireBytesClassified := by
  unfold Obligations.WireBytesClassified
  decide

@[simp] theorem decodeWire_dataCmdByte : decodeWire dataCmdByte = .instr .wData := rfl

@[simp] theorem decodeWire_addrByte (pos : BitVec 4) : decodeWire (addrByte pos) = .instr (.wAddr pos) := by
  revert pos; decide

@[simp] theorem decodeWire_dispCtlByte (on : Bool) (bri : BitVec 3) :
    decodeWire (dispCtlByte on bri) = .instr (.wDisp on bri) := by
  revert on bri; decide

end Sys2Proof.Machine

/-! The device's observer over whole frames (40_transport R123, 70_reset R252): from outside a frame, the device takes the
bytes of a frame once, and both lines are left high. -/

namespace Sys2Proof.Machine

section OneFrame
variable {d : Driver}

/-! ### A driver's events, as the observer on its pins sees them -/

@[simp] theorem busSymbol_wait (clk dio : PinId) : busSymbol clk dio .wait = .gap := rfl

@[simp] theorem busSymbol_clkEvent (dio : PinId) (b : Level) : busSymbol d.pinclk dio (clkEvent d b) = .clock b := by
  simp [busSymbol, clkEvent]

@[simp] theorem busSymbol_dioEvent (hpins : d.pinclk ≠ d.pindio) (b : Level) :
    busSymbol d.pinclk d.pindio (dioEvent d b) = .data b := by
  simp [busSymbol, dioEvent, hpins.symm]

@[simp] theorem sampleNext_wait (clk dio : PinId) (l : Sampler) : sampleNext clk dio l .wait = l := rfl

@[simp] theorem sampleNext_clkEvent (hpins : d.pinclk ≠ d.pindio) (l : Sampler) (b : Level) :
    sampleNext d.pinclk d.pindio l (clkEvent d b) = { l with clock := some b } := by
  simp [sampleNext, clkEvent, hpins]

@[simp] theorem sampleNext_dioEvent (hpins : d.pinclk ≠ d.pindio) (l : Sampler) (b : Level) :
    sampleNext d.pinclk d.pindio l (dioEvent d b) = { l with data := some b } := by
  simp [sampleNext, dioEvent, hpins.symm]

/-! ### Start, bits, bytes, stop -/

/-- Any fall of the data line outside a frame is the first event of a start. -/
theorem rxOutside_data_false (matched : Nat) : rxOutside matched (.data false) = .outside 1 := by
  unfold rxOutside
  split <;> simp_all

/-- A start opens a frame, unless its first edge cuts short a start already begun. -/
theorem deviceRun_startSeq (hpins : d.pinclk ≠ d.pindio) {m : DeviceRx} {matched : Nat}
    (hpos : m.rx.pos = .outside matched) (hframing : breaksFraming m (.data false) = false) :
    deviceRun d.pinclk d.pindio m (startSeq d) =
      ⟨⟨m.rx.frames, .inside [] [] .boundary⟩, ⟨some false, some false⟩, beginsFromIdle m (.data false), m.device⟩ := by
  have hfirst : deviceNext d.pinclk d.pindio m (dioEvent d false) =
      ⟨⟨m.rx.frames, .outside 1⟩, ⟨m.levels.clock, some false⟩, beginsFromIdle m (.data false), m.device⟩ := by
    simp [deviceNext, rxNext, hpins, hpos, hframing, rxOutside_data_false]
  rw [startSeq, deviceRun, List.foldl_cons, hfirst]
  simp [deviceNext, rxNext, hpins, rxOutside, breaksFraming, beginsFromIdle]

section InsideFrame
variable {fs : List (List Byte)} {bytes : List Byte} {levels : Sampler} {fromIdle : Bool} {v : DeviceView}

theorem deviceRun_bitSeq (hpins : d.pinclk ≠ d.pindio) (bits : List Bool) (b : Level) :
    deviceRun d.pinclk d.pindio ⟨⟨fs, .inside bytes bits .boundary⟩, levels, fromIdle, v⟩ (bitSeq d b) =
      ⟨⟨fs, pushBit bytes bits b⟩, ⟨some false, some b⟩, fromIdle, v⟩ := by
  simp [deviceRun, bitSeq, deviceNext, rxNext, hpins, rxInside, breaksFraming, beginsFromIdle]

theorem deviceRun_byteSeq (hpins : d.pinclk ≠ d.pindio) (x : Byte) :
    deviceRun d.pinclk d.pindio ⟨⟨fs, .inside bytes [] .boundary⟩, levels, fromIdle, v⟩ (byteSeq d x) =
      ⟨⟨fs, .inside (bytes ++ [x]) [] .boundary⟩, ⟨some false, some (x.getLsbD 7)⟩, fromIdle, v⟩ := by
  have hbits : byteOfBits [x.getLsbD 0, x.getLsbD 1, x.getLsbD 2, x.getLsbD 3, x.getLsbD 4, x.getLsbD 5,
      x.getLsbD 6, x.getLsbD 7] = x := byteOfBits_wireBits x
  simp only [byteSeq, wireBits, List.flatMap_cons, List.flatMap_nil, List.append_nil, deviceRun_append,
    deviceRun_bitSeq hpins, pushBit, List.length_cons, List.length_nil, List.nil_append, List.cons_append,
    Nat.reduceAdd, Nat.reduceEqDiff, reduceIte, hbits]

theorem deviceRun_bytes (hpins : d.pinclk ≠ d.pindio) (xs : List Byte) :
    ∃ after, deviceRun d.pinclk d.pindio ⟨⟨fs, .inside bytes [] .boundary⟩, levels, fromIdle, v⟩
        (xs.flatMap (byteSeq d)) = ⟨⟨fs, .inside (bytes ++ xs) [] .boundary⟩, after, fromIdle, v⟩ := by
  induction xs generalizing bytes levels with
  | nil => exact ⟨levels, by simp [deviceRun]⟩
  | cons x xs ih =>
    rw [List.flatMap_cons, deviceRun_append, deviceRun_byteSeq hpins, List.append_cons bytes x xs]
    exact ih

/-- A stop completes the frame: the device takes it. -/
theorem deviceRun_stopSeq (hpins : d.pinclk ≠ d.pindio) :
    deviceRun d.pinclk d.pindio ⟨⟨fs, .inside bytes [] .boundary⟩, levels, fromIdle, v⟩ (stopSeq d) =
      ⟨⟨fs ++ [bytes], .outside 0⟩, ⟨some true, some true⟩, fromIdle, deviceFrame v fromIdle bytes⟩ := by
  simp [deviceRun, stopSeq, deviceNext, rxNext, hpins, rxInside, breaksFraming, beginsFromIdle]

end InsideFrame

theorem deviceRun_frameSeq (hpins : d.pinclk ≠ d.pindio) {m : DeviceRx} {matched : Nat}
    (hpos : m.rx.pos = .outside matched) (hframing : breaksFraming m (.data false) = false) (bytes : List Byte) :
    deviceRun d.pinclk d.pindio m (frameSeq d bytes) =
      ⟨⟨m.rx.frames ++ [bytes], .outside 0⟩, ⟨some true, some true⟩, beginsFromIdle m (.data false),
        deviceFrame m.device (beginsFromIdle m (.data false)) bytes⟩ := by
  rw [frameSeq, deviceRun_append, deviceRun_append, deviceRun_startSeq hpins hpos hframing]
  obtain ⟨after, hbytes⟩ := deviceRun_bytes (fs := m.rx.frames) (bytes := []) (levels := ⟨some false, some false⟩)
    (fromIdle := beginsFromIdle m (.data false)) (v := m.device) hpins bytes
  rw [hbytes, deviceRun_stopSeq hpins, List.nil_append]

end OneFrame

/-! ### From idle bus to idle bus -/

/-- The observer stands between frames, sees both lines high, and holds the device `v`. -/
structure AtRest (m : DeviceRx) (v : DeviceView) : Prop where
  pos : m.rx.pos = .outside 0
  levels : m.levels = ⟨some true, some true⟩
  device : m.device = v

/-- From rest to rest, the device takes the frame as one begun with both lines high. -/
theorem AtRest.frameSeq {m : DeviceRx} {v : DeviceView} (h : AtRest m v) {d : Driver} (hpins : d.pinclk ≠ d.pindio)
    (bytes : List Byte) : AtRest (deviceRun d.pinclk d.pindio m (frameSeq d bytes)) (deviceFrame v true bytes) := by
  obtain ⟨hpos, hlevels, rfl⟩ := h
  have hframing : breaksFraming m (.data false) = false := by simp [breaksFraming, hpos]
  have hidle : beginsFromIdle m (.data false) = true := by simp [beginsFromIdle, hpos, hlevels]
  rw [deviceRun_frameSeq hpins hpos hframing, hidle]
  exact ⟨rfl, rfl, rfl⟩

theorem deviceRx_of_emitted {s t : State} {es : List Event} (htrace : t.trace = s.trace ++ es) (hpast : t.past = s.past)
    (clk dio : PinId) : deviceRx clk dio t = deviceRun clk dio (deviceRx clk dio s) es := by
  rw [deviceRx, htrace, hpast, deviceRun_append]; rfl

/-- A clean link whose device holds `r`: what `linkClean` and `deviceView` say together, of the observer. -/
structure CleanLink (clk dio : PinId) (s : State) (r : DeviceRegs) : Prop where
  pins : clk ≠ dio
  rest : AtRest (deviceRx clk dio s) (.regs r)
  noOpenWrite : r.bracket ≠ .pending

theorem cleanLink_iff {clk dio : PinId} {s : State} {r : DeviceRegs} :
    CleanLink clk dio s r ↔ linkClean clk dio s ∧ deviceView clk dio s = .regs r := by
  constructor
  · rintro ⟨hpins, ⟨hpos, hlevels, hdevice⟩, hbracket⟩
    have hview : deviceView clk dio s = .regs r := by
      simp only [deviceView, if_neg hpins, settled, hpos, hdevice, if_neg hbracket]
    rw [deviceRx_levels, Sampler.mk.injEq] at hlevels
    exact ⟨⟨hlevels.1, hlevels.2, r, hview⟩, hview⟩
  · rintro ⟨⟨hclock, hdata, -⟩, hview⟩
    obtain ⟨hpins, hpos, hdevice, hbracket⟩ := deviceView_regs hview
    exact ⟨hpins, ⟨by rwa [deviceRx_rx], by rw [deviceRx_levels, hclock, hdata], hdevice⟩, hbracket⟩

theorem linkClean_cleanLink {clk dio : PinId} {s : State} (h : linkClean clk dio s) : ∃ r, CleanLink clk dio s r := by
  obtain ⟨hclock, hdata, r, hview⟩ := h
  exact ⟨r, cleanLink_iff.mpr ⟨⟨hclock, hdata, r, hview⟩, hview⟩⟩

/-! ### What the block's frames do to the device's registers -/

section Frames
variable (r : DeviceRegs)

/-- The device after a data command. -/
def DeviceRegs.armed : DeviceRegs := { r with autoIncrement := true, bracket := .armed }

/-- The device after a display control. -/
def DeviceRegs.controlled (on : Bool) (bri : BitVec 3) : DeviceRegs :=
  { r with control := some (on, bri), bracket := .closed }

/-- The device after a memory write that ends at or below position 15. -/
def DeviceRegs.written (pos : BitVec 4) (payload : List Byte) : DeviceRegs :=
  { r with pointer := pointerAfter pos payload.length
           display := displayStore r.display pos.toNat payload
           bracket := .pending }

theorem deviceFrame_dataCmd (hbracket : r.bracket ≠ .pending) :
    deviceFrame (.regs r) true [dataCmdByte] = .regs r.armed := by
  simp only [deviceFrame, decodeWire_dataCmdByte, if_true]
  cases hb : r.bracket with
  | closed | armed => simp [deviceTake, hb, DeviceRegs.armed]
  | pending => exact absurd hb hbracket

theorem deviceFrame_dispCtl (on : Bool) (bri : BitVec 3) :
    deviceFrame (.regs r) true [dispCtlByte on bri] = .regs (r.controlled on bri) := by
  simp [deviceFrame, deviceTake, DeviceRegs.controlled]

theorem deviceFrame_addrWrite (harmed : r.bracket = .armed) {pos : BitVec 4} {payload : List Byte}
    (hfits : pos.toNat + payload.length ≤ 16) :
    deviceFrame (.regs r) true (addrByte pos :: payload) = .regs (r.written pos payload) := by
  simp [deviceFrame, deviceTake, DeviceRegs.written, harmed, hfits]

end Frames

/-! ### What the block's transactions leave on a clean link -/

section Transactions
variable {d : Driver} {s t : State} {r : DeviceRegs}

/-- A display control alone. -/
theorem CleanLink.dispCtl (h : CleanLink d.pinclk d.pindio s r) {on : Bool} {bri : BitVec 3}
    (htrace : t.trace = s.trace ++ dispCtlSeq d on bri) (hpast : t.past = s.past) :
    CleanLink d.pinclk d.pindio t (r.controlled on bri) := by
  obtain ⟨hpins, hrest, -⟩ := h
  refine ⟨hpins, ?_, nofun⟩
  rw [deviceRx_of_emitted htrace hpast, ← deviceFrame_dispCtl]
  exact hrest.frameSeq hpins _

/-- A data command and a display control. -/
theorem CleanLink.dataCmd_dispCtl (h : CleanLink d.pinclk d.pindio s r) {on : Bool} {bri : BitVec 3}
    (htrace : t.trace = s.trace ++ (dataCmdSeq d ++ dispCtlSeq d on bri)) (hpast : t.past = s.past) :
    CleanLink d.pinclk d.pindio t (r.armed.controlled on bri) := by
  obtain ⟨hpins, hrest, hbracket⟩ := h
  refine ⟨hpins, ?_, nofun⟩
  rw [deviceRx_of_emitted htrace hpast, deviceRun_append, ← deviceFrame_dispCtl, ← deviceFrame_dataCmd r hbracket]
  exact (hrest.frameSeq hpins _).frameSeq hpins _

/-- A bracketed memory write that ends at or below position 15. -/
theorem CleanLink.memWrite (h : CleanLink d.pinclk d.pindio s r) {pos : BitVec 4} {payload : List Byte}
    (hfits : pos.toNat + payload.length ≤ 16) {on : Bool} {bri : BitVec 3}
    (htrace : t.trace = s.trace ++ memWriteSeq d pos payload on bri) (hpast : t.past = s.past) :
    CleanLink d.pinclk d.pindio t ((r.armed.written pos payload).controlled on bri) := by
  obtain ⟨hpins, hrest, hbracket⟩ := h
  refine ⟨hpins, ?_, nofun⟩
  rw [deviceRx_of_emitted htrace hpast, memWriteSeq, deviceRun_append, deviceRun_append, ← deviceFrame_dispCtl,
    ← deviceFrame_addrWrite _ rfl hfits, ← deviceFrame_dataCmd r hbracket]
  exact ((hrest.frameSeq hpins _).frameSeq hpins _).frameSeq hpins _

end Transactions

end Sys2Proof.Machine

/-! Memory writes: mirror and device agree at every position addressed (20_memory R61). -/

namespace Sys2Proof.Machine

/-- What a frame's data bytes leave at every display position: `memRead_mirrorStore` for the device. -/
theorem displayStore_find (cells : List Host.Cell) (a : Nat) (bs : List Byte) (p : Nat) :
    ((displayStore cells a bs).find? fun c => c.1 = p).map Prod.snd =
      if a ≤ p then (bs[p - a]?).or ((cells.find? fun c => c.1 = p).map Prod.snd)
      else (cells.find? fun c => c.1 = p).map Prod.snd := by
  induction bs generalizing cells a with
  | nil => simp [displayStore]
  | cons b bs ih =>
    rw [displayStore, ih]
    rcases Nat.lt_trichotomy a p with h | rfl | h
    · have hindex : p - a = p - (a + 1) + 1 := by omega
      simp [Nat.succ_le_of_lt h, h.le, h.ne, hindex]
    · simp
    · simp [h.ne', not_le.mpr h, not_le.mpr (Nat.lt_succ_of_lt h)]

theorem displayAt_written (r : DeviceRegs) (pos : BitVec 4) (payload : List Byte) {p : Nat} (hfrom : pos.toNat ≤ p)
    (hto : p < pos.toNat + payload.length) :
    displayAt (r.written pos payload) p = payload[p - pos.toNat]? := by
  have hlane : p - pos.toNat < payload.length := by omega
  rw [displayAt, DeviceRegs.written, displayStore_find, if_pos hfrom, List.getElem?_eq_getElem hlane, Option.some_or]

theorem memRead_writeMemory (s : State) (d : Driver) (pos : BitVec 4) (payload : List Byte) {p : Nat}
    (hfrom : pos.toNat ≤ p) (hto : p < pos.toNat + payload.length) (hlast : p < 16) :
    payload[p - pos.toNat]? = some (memRead (writeMemory s d pos payload).gram p) := by
  have hlane : p - pos.toNat < payload.length := by omega
  rw [writeMemory_gram, memRead_mirrorStore, if_pos ⟨hfrom, hlast⟩, List.getElem?_eq_getElem hlane, Option.getD_some]

/-- A memory write through the block's one channel, whatever the mirror held: the link is clean after it, the device has the
block's control, and it holds what the mirror holds at every position addressed. -/
theorem CleanLink.writeMemory {d : Driver} {s : State} {r : DeviceRegs} (h : CleanLink d.pinclk d.pindio s r)
    (gram : Memory) {pos : BitVec 4} {payload : List Byte} (hfits : pos.toNat + payload.length ≤ 16) :
    let t := writeMemory { s with gram := gram } d pos payload
    ∃ r', CleanLink d.pinclk d.pindio t r' ∧ r'.bracket = .closed ∧ r'.autoIncrement = true ∧
      r'.control = some (t.power, d.bright) ∧
      ∀ p, pos.toNat ≤ p → p < pos.toNat + payload.length → displayAt r' p = some (memRead t.gram p) := by
  refine ⟨_, h.memWrite hfits (writeMemory_trace _ d pos payload) (writeMemory_past _ d pos payload), rfl, rfl, rfl,
    fun p hfrom hto => ?_⟩
  rw [← memRead_writeMemory _ d pos payload hfrom hto (by omega)]
  exact displayAt_written r.armed pos payload hfrom hto

theorem payloadBytes_length (len : BitVec 5) (data : Vector Word 16) :
    (payloadBytes len data).length = min len.toNat 16 := by
  simp [payloadBytes, payloadMax]

/-- A start position in range is the operand itself. -/
theorem startPosition_of_lt {a : Word} {start : Nat} (ha : a.toInt = start) (hstart : start < 16) :
    ∃ pos, startPosition a = some pos ∧ pos.toNat = start := by
  refine ⟨a.extractLsb' 0 4, if_pos ⟨by omega, by omega⟩, ?_⟩
  have hnat : a.toNat = start := by
    rw [BitVec.toInt_eq_toNat_cond] at ha
    split at ha <;> omega
  rw [BitVec.extractLsb'_toNat, hnat, Nat.shiftRight_zero]
  omega

/-- The positions an instruction addresses when it writes memory (42_display R159 to R161, 43_renderers R188, R189). -/
def addresses (i : Instr) (start count : Nat) : Prop :=
  match i with
  | .wrmem a len _ => start < 16 ∧ a.toInt = start ∧ count = min len.toNat 16
  | .clear | .refresh | .showint _ | .showflt1 _ => start = 0 ∧ count = 4
  | _ => False

/-- Every command that writes memory does so through `writeMemory`, after writing at most the mirror. -/
theorem exec_addresses {i : Instr} {s t : State} {d : Driver} (hmode : s.mode = .active d) (h : exec i s = .next t)
    {start count : Nat} (haddr : addresses i start count) :
    ∃ gram pos payload, t = writeMemory { s with gram := gram } d pos payload ∧ pos.toNat = start ∧
      payload.length = count := by
  cases i with
  | wrmem a len data =>
    obtain ⟨hstart, ha, rfl⟩ := haddr
    obtain ⟨pos, hpos, rfl⟩ := startPosition_of_lt ha hstart
    cases (whenActive_active hmode _).symm.trans h
    exact ⟨s.gram, pos, payloadBytes len data, by rw [hpos], rfl, payloadBytes_length len data⟩
  | clear | refresh =>
    obtain ⟨rfl, rfl⟩ := haddr
    cases (whenActive_active hmode _).symm.trans h
    exact ⟨s.gram, 0, _, rfl, rfl, rfl⟩
  | showint _ | showflt1 _ =>
    obtain ⟨rfl, rfl⟩ := haddr
    cases (whenActive_active hmode _).symm.trans h
    exact ⟨_, 0, _, rfl, rfl, rfl⟩
  | _ => exact haddr.elim

/-- Settles O43: every memory write goes through `writeMemory`, whose three frames and whose store to the mirror carry the
same payload to the same positions. -/
theorem memoryWritesReachTheDevice : Obligations.MemoryWritesReachTheDevice := by
  intro i s t d hmode hlink hexec start count hfits haddr
  obtain ⟨r, hclean⟩ := linkClean_cleanLink hlink
  obtain ⟨gram, pos, payload, rfl, rfl, rfl⟩ := exec_addresses hmode hexec haddr
  obtain ⟨r', hclean', hbracket, hauto, hcontrol, hdisplay⟩ := hclean.writeMemory gram hfits
  obtain ⟨hlink', hview'⟩ := cleanLink_iff.mp hclean'
  exact ⟨hlink', r', hview', hbracket, hauto, hcontrol, hdisplay⟩

/-! SETPWR, SETBRI and the reset of the block alone (20_memory R68). -/

theorem step_of_reset {s : State} {rest : List Input} (h : s.inbox = .reset :: rest) :
    step s = .next (hardReset { s with inbox := rest }) := by
  simp [step, serve, h]

/-- The device keeps what it holds over a reset between commands. -/
theorem deviceView_hardReset {s : State} (hidle : s.seq = .idle) {clk dio : PinId} {r : DeviceRegs}
    (hview : deviceView clk dio s = .regs r) : deviceView clk dio (hardReset s) = .regs r := by
  obtain ⟨hpins, hpos, hdevice, hbracket⟩ := deviceView_regs hview
  have hobserver : deviceRx clk dio (hardReset s) = overReset (deviceRx clk dio s) := by
    simp [deviceRx, hidle, deviceBefore_append, deviceRun]
  simp [deviceView, hpins, settled, hobserver, overReset, hpos, hdevice, hbracket, deviceRxStart, rxStart]

/-- The driver SETBRI leaves (42_display R157). -/
def Driver.withBrightness (d : Driver) (a : Word) : Driver := { d with bright := brightnessOperand a }

section PowerAndBrightness
variable {d : Driver} {s t : State} {r : DeviceRegs} {a : Word}

theorem CleanLink.setpwr (h : CleanLink d.pinclk d.pindio s r) (hmode : s.mode = .active d)
    (hexec : exec (.setpwr a) s = .next t) :
    CleanLink d.pinclk d.pindio t (r.controlled t.power d.bright) ∧ t.mode = .active d := by
  cases (whenActive_active hmode _).symm.trans hexec
  exact ⟨h.dispCtl rfl rfl, hmode⟩

theorem CleanLink.setbri (h : CleanLink d.pinclk d.pindio s r) (hmode : s.mode = .active d)
    (hexec : exec (.setbri a) s = .next t) :
    CleanLink d.pinclk d.pindio t (r.armed.controlled t.power (brightnessOperand a)) ∧
      t.mode = .active (d.withBrightness a) := by
  cases (whenActive_active hmode _).symm.trans hexec
  exact ⟨h.dataCmd_dispCtl rfl rfl, rfl⟩

end PowerAndBrightness

/-- Settles O44: the frames of SETPWR and SETBRI write the control only, and the view runs on over the emptied trace. -/
theorem powerAndBrightnessKeepTheDisplay : Obligations.PowerAndBrightnessKeepTheDisplay := by
  constructor
  · intro i s t d r hmode hlink hview hi hexec
    have hclean : CleanLink d.pinclk d.pindio s r := cleanLink_iff.mpr ⟨hlink, hview⟩
    obtain ⟨a, rfl | rfl⟩ := hi
    · obtain ⟨hclean', hmode'⟩ := hclean.setpwr hmode hexec
      obtain ⟨hlink', hview'⟩ := cleanLink_iff.mp hclean'
      exact ⟨hlink', _, d.bright, hview', rfl, hmode', rfl⟩
    · obtain ⟨hclean', hmode'⟩ := hclean.setbri hmode hexec
      obtain ⟨hlink', hview'⟩ := cleanLink_iff.mp hclean'
      exact ⟨hlink', _, brightnessOperand a, hview', rfl, hmode', rfl⟩
  · intro s rest clk dio r hidle hin hview
    exact ⟨_, step_of_reset hin, deviceView_hardReset (s := { s with inbox := rest }) hidle hview, memRead_nil⟩

end Sys2Proof.Machine

/-! A command given twice (20_memory R59): the second time does to the state after the first what the first did. -/

namespace Sys2Proof.Machine

/-- Two mirrors that read alike at every position. -/
def sameReads (m n : Memory) : Prop := ∀ p, memRead n p = memRead m p

theorem digitRelation_sameReads : DigitRelation sameReads where
  cleared _ := rfl
  store h a bs p := by rw [memRead_mirrorStore, memRead_mirrorStore, h p]
  digits h p _ := h p

theorem memRead_mirrorStore_twice (m : Memory) (a : Nat) (bs : List Byte) (p : Nat) :
    memRead (mirrorStore (mirrorStore m a bs) a bs) p = memRead (mirrorStore m a bs) p := by
  simp only [memRead_mirrorStore]
  split
  · cases bs[p - a]? <;> rfl
  · rfl

/-- `refresh()` stores what it read. -/
theorem memRead_refreshDigits (s : State) (d : Driver) (p : Nat) :
    memRead (refreshDigits s d).gram p = memRead s.gram p := by
  rw [refreshDigits, writeMemory_gram, memRead_mirrorStore]
  match p with
  | 0 | 1 | 2 | 3 => rfl
  | p + 4 => simp

@[simp] theorem refreshDigits_mode (s : State) (d : Driver) : (refreshDigits s d).mode = s.mode := rfl

@[simp] theorem showSegments_mode (s : State) (d : Driver) (segs : List Byte) :
    (showSegments s d segs).mode = s.mode := rfl

@[simp] theorem showSegments_font (s : State) (d : Driver) (segs : List Byte) :
    (showSegments s d segs).font = s.font := rfl

theorem sameEffect_refl (s : State) : SameEffect sameReads s s s s :=
  Related.sameEffect_refl ⟨rfl, rfl, rfl, fun _ => rfl⟩

/-- The same register writes and the same events again. -/
theorem emitAll_again {s s' u' : State} {es : List Event} (hsame : Related sameReads s' u') (hs : s'.trace = s.trace)
    (hu : u'.trace = (emitAll s' es).trace) : SameEffect sameReads s (emitAll s' es) (emitAll s' es) (emitAll u' es) :=
  ⟨s', u', es, hsame, hs, hu, rfl, rfl⟩

theorem writeMemory_again (s : State) (d : Driver) (pos : BitVec 4) (payload : List Byte) :
    SameEffect sameReads s (writeMemory s d pos payload) (writeMemory s d pos payload)
      (writeMemory (writeMemory s d pos payload) d pos payload) :=
  emitAll_again ⟨rfl, rfl, rfl, memRead_mirrorStore_twice s.gram pos.toNat payload⟩ rfl rfl

theorem refreshDigits_again (s : State) (d : Driver) :
    SameEffect sameReads s (refreshDigits s d) (refreshDigits s d) (refreshDigits (refreshDigits s d) d) := by
  have hrefreshed : Related sameReads s (refreshDigits s d) := ⟨rfl, rfl, rfl, memRead_refreshDigits s d⟩
  exact hrefreshed.refreshDigits_same digitRelation_sameReads d

/-- The second store finds the segments in place, so the second refresh reads what the first read. -/
theorem showSegments_again (s : State) (d : Driver) (segs : List Byte) :
    SameEffect sameReads s (showSegments s d segs) (showSegments s d segs)
      (showSegments (showSegments s d segs) d segs) := by
  have hstored : Related sameReads { s with gram := mirrorStore s.gram 0 segs }
      { showSegments s d segs with gram := mirrorStore (showSegments s d segs).gram 0 segs } := by
    refine ⟨rfl, rfl, rfl, fun p => ?_⟩
    have hrefreshed := memRead_refreshDigits { s with gram := mirrorStore s.gram 0 segs } d
    exact (digitRelation_sameReads.store hrefreshed 0 segs p).trans (memRead_mirrorStore_twice s.gram 0 segs p)
  exact hstored.refreshDigits_same digitRelation_sameReads d

/-- A guarded meaning, given twice: nothing happens while Uninitialized, and an Active block is Active for the second. -/
theorem whenActive_again (meaning : State → Driver → State) {s t u : State}
    (ht : whenActive s (meaning s) = .next t) (hu : whenActive t (meaning t) = .next u)
    (hagain : ∀ d, s.mode = .active d → ∃ d', (meaning s d).mode = .active d' ∧
      SameEffect sameReads s (meaning s d) (meaning s d) (meaning (meaning s d) d')) :
    SameEffect sameReads s t t u := by
  rcases whenActive_next ht with ⟨-, rfl⟩ | ⟨d, hmode, rfl⟩
  · cases ht.symm.trans hu
    exact sameEffect_refl t
  · obtain ⟨d', hmode', heffect⟩ := hagain d hmode
    cases (whenActive_active hmode' _).symm.trans hu
    exact heffect

/-- Every command does the same again in the state it leaves. -/
theorem exec_again {i : Instr} {s t u : State} (hport : i.port = .cport) (ht : exec i s = .next t)
    (hu : exec i t = .next u) : SameEffect sameReads s t t u := by
  cases i with
  | init clk dio a =>
    cases ht
    cases hu
    exact emitAll_again ⟨rfl, rfl, rfl, fun _ => rfl⟩ rfl rfl
  | setbri a =>
    refine whenActive_again (fun s d => emitAll (setDriver s (d.withBrightness a))
      (dataCmdSeq d ++ dispCtlSeq d s.power (brightnessOperand a))) ht hu
      fun d hmode => ⟨d.withBrightness a, rfl, ?_⟩
    exact emitAll_again ⟨rfl, rfl, rfl, fun _ => rfl⟩ rfl rfl
  | setpwr a =>
    refine whenActive_again
      (fun s d => emitAll { s with power := onFlag a } (dispCtlSeq d (onFlag a) d.bright)) ht hu
      fun d hmode => ⟨d, hmode, ?_⟩
    exact emitAll_again ⟨rfl, rfl, rfl, fun _ => rfl⟩ rfl rfl
  | wrmem a len data =>
    simp only [exec, execWrmem] at ht hu
    cases hpos : startPosition a with
    | none =>
      rw [hpos] at ht hu
      exact whenActive_again (fun s _ => s) ht hu fun d hmode => ⟨d, hmode, sameEffect_refl s⟩
    | some pos =>
      rw [hpos] at ht hu
      exact whenActive_again (fun s d => writeMemory s d pos (payloadBytes len data)) ht hu
        fun d hmode => ⟨d, by simpa using hmode, writeMemory_again s d pos _⟩
  | clear =>
    exact whenActive_again (fun s d => writeMemory s d 0 [0x00#8, 0x00#8, 0x00#8, 0x00#8]) ht hu
      fun d hmode => ⟨d, by simpa using hmode, writeMemory_again s d 0 _⟩
  | refresh =>
    exact whenActive_again refreshDigits ht hu
      fun d hmode => ⟨d, by simpa using hmode, refreshDigits_again s d⟩
  | showint a =>
    refine whenActive_again (fun s d => showSegments s d (intSegments s.font a.toInt)) ht hu
      fun d hmode => ⟨d, by simpa using hmode, ?_⟩
    rw [showSegments_font]
    exact showSegments_again s d _
  | showflt1 a =>
    refine whenActive_again (fun s d => showSegments s d (fltSegments s.font a.toInt)) ht hu
      fun d hmode => ⟨d, by simpa using hmode, ?_⟩
    rw [showSegments_font]
    exact showSegments_again s d _
  | cReserved _ =>
    cases ht
    cases hu
    exact sameEffect_refl _
  | _ => cases hport

/-- Settles O40: the two states a command leaves are related by equal reads of the mirror, and the events are the same. -/
theorem commandsAreIdempotentInState : Obligations.CommandsAreIdempotentInState := by
  intro i s t u hport ht hu
  obtain ⟨hrel, hnew⟩ := (exec_again hport ht hu).related
  exact ⟨hrel.mode, hrel.power, hrel.gram, hnew⟩

end Sys2Proof.Machine

/-! Decoding an encoded instruction (30_encoding R82 to R92), on the ports and in the packed form (log 2). -/

namespace Sys2Proof.Machine

theorem decode_encode (i : Instr) : decode (encode i) = .instr i := by
  cases i with
  | wData => exact decodeWire_dataCmdByte
  | wAddr pos => exact decodeWire_addrByte pos
  | wDisp on bri => exact decodeWire_dispCtlByte on bri
  | tReserved low | cReserved low => revert low; decide
  | _ => rfl

/-- A field of a packed number has no part in the bits above it. -/
theorem putField_div_of_le {w b : Nat} (v : BitVec w) (rest : Nat) (h : w ≤ b) :
    putField v rest / 2 ^ b = rest / 2 ^ (b - w) :=
  putField_div_above v rest (b - w) b (by omega)

theorem putField_testBit_of_le {w k : Nat} (v : BitVec w) (rest : Nat) (h : w ≤ k) :
    (putField v rest).testBit k = rest.testBit (k - w) := by
  calc (putField v rest).testBit k = (putField v rest).testBit (k - w + w) := by rw [Nat.sub_add_cancel h]
    _ = (putField v rest / 2 ^ w).testBit (k - w) := (Nat.testBit_div_two_pow ..).symm
    _ = rest.testBit (k - w) := by rw [putField_div]

theorem unpackC_pack (b : CBundle) : unpackC (pack (.cport b)) = b := by
  simp (disch := decide) only [unpackC, pack, dropField_putField, putField_div_of_le, Nat.reduceSub, pow_zero,
    Nat.div_one, fieldOf_putField, unpackLanes_packLanes]

theorem unpackT_pack (b : TBundle) : unpackT (pack (.tport b)) = b := by
  simp (disch := decide) only [unpackT, pack, dropField_putField, putField_div_of_le, putField_testBit_of_le,
    Nat.reduceSub, pow_zero, Nat.div_one, fieldOf_putField, putField_ofBool_testBit, unpackLanes_packLanes]

/-- The port bits of a packed bundle, above its opcode. -/
theorem putField_putField_port (op port : BitVec 4) (rest : Nat) :
    putField op (putField port rest) / 16 % 16 = port.toNat := by
  calc putField op (putField port rest) / 2 ^ 4 % 2 ^ 4 = putField port rest % 2 ^ 4 := by rw [putField_div]
    _ = port.toNat := putField_mod port rest

/-- A byte whose high four bits are neither 0 nor 1 is its own packed form. -/
theorem unpack_wire {b : Byte} (h : 0x20 ≤ b.toNat) : unpack b.toNat = .wire b := by
  have hlt : b.toNat < 256 := b.isLt
  rw [unpack, if_neg (by omega), if_neg (by omega), fieldOf, BitVec.ofNat_toNat, BitVec.setWidth_eq]

theorem unpack_pack {r : Request} (h : ∀ b, r = .wire b → 0x20 ≤ b.toNat) : unpack (pack r) = r := by
  cases r with
  | cport b =>
    have hport : pack (.cport b) / 16 % 16 = 0 := putField_putField_port b.op 0 _
    rw [unpack, if_pos hport, unpackC_pack]
  | tport b =>
    have hport : pack (.tport b) / 16 % 16 = 1 := putField_putField_port b.op 1 _
    rw [unpack, if_neg (by omega), if_pos hport, unpackT_pack]
  | wire b => exact unpack_wire (h b rfl)

/-- Every wire command is such a byte. -/
theorem encode_wire_ge {i : Instr} {b : Byte} (h : encode i = .wire b) : 0x20 ≤ b.toNat := by
  cases i with
  | wData => cases h; decide
  | wAddr pos => cases h; revert pos; decide
  | wDisp on bri => cases h; revert on bri; decide
  | _ => cases h

/-- Settles O1: the packed form gives every encoded request back, and the decoder reads it as the instruction. -/
theorem decodeEncodeRoundTrip : Obligations.DecodeEncodeRoundTrip := by
  intro i
  refine ⟨decode_encode i, ?_⟩
  rw [decodeWord, encodeWord, unpack_pack fun _ => encode_wire_ge, decode_encode]

/-! ### Every bundle of the two ports, whatever its unused operands hold -/

theorem decodeC_reserved {b : CBundle} (h : 8 ≤ b.op.toNat) : decodeC b = .cReserved (b.op.extractLsb' 0 3) := by
  fun_cases decodeC b <;> simp_all

theorem decodeT_reserved {b : TBundle} (h : 8 ≤ b.op.toNat) : decodeT b = .tReserved (b.op.extractLsb' 0 3) := by
  fun_cases decodeT b <;> simp_all

/-- Settles O16: the reserved instruction of the port keeps the opcode's low bits and does nothing. -/
theorem reservedOpcodesAreNoops : Obligations.ReservedOpcodesAreNoops :=
  ⟨fun _ h => ⟨_, congrArg Decoded.instr (decodeC_reserved h), fun _ => rfl⟩,
    fun _ h => ⟨_, congrArg Decoded.instr (decodeT_reserved h), fun _ => rfl⟩⟩

/-- A reserved opcode is a 1 above its low three bits. -/
theorem reservedOpcode_append {op : BitVec 4} (h : 8 ≤ op.toNat) : 1#1 ++ op.extractLsb' 0 3 = op := by
  revert op; decide

/-- The encoder gives the opcode of a decoded bundle back, whatever operands the decoder ignored. -/
theorem opcodeBits_encode_decodeC (b : CBundle) :
    (encode (decodeC b)).opcodeBits = (Request.cport b).opcodeBits := by
  fun_cases decodeC b
  case case9 =>
    have hop : 8 ≤ b.op.toNat := by simp only [imp_false] at *; bv_omega
    simp [encode, Request.opcodeBits, cIdle, reservedOpcode_append hop]
  all_goals simp_all [encode, Request.opcodeBits, cIdle]

theorem opcodeBits_encode_decodeT (b : TBundle) :
    (encode (decodeT b)).opcodeBits = (Request.tport b).opcodeBits := by
  fun_cases decodeT b
  case case9 =>
    have hop : 8 ≤ b.op.toNat := by simp only [imp_false] at *; bv_omega
    simp [encode, Request.opcodeBits, tIdle, reservedOpcode_append hop]
  all_goals simp_all [encode, Request.opcodeBits, tIdle]

/-- The family OwnRow, for every instruction. -/
theorem ownRow (i : Instr) : Laws.OwnRow.Statement i := by
  cases i with
  | wData => exact Laws.OwnRow.wData
  | wAddr pos => exact Laws.OwnRow.wAddr pos
  | wDisp on bri => exact Laws.OwnRow.wDisp on bri
  | tSetclk lvl => exact Laws.OwnRow.tSetclk lvl
  | tSetdat lvl => exact Laws.OwnRow.tSetdat lvl
  | tStart => exact Laws.OwnRow.tStart
  | tStop => exact Laws.OwnRow.tStop
  | tWbyte byte => exact Laws.OwnRow.tWbyte byte
  | tDatacmd => exact Laws.OwnRow.tDatacmd
  | tDispctl on bri => exact Laws.OwnRow.tDispctl on bri
  | tAddrwr pos len data => exact Laws.OwnRow.tAddrwr pos len data
  | tReserved low => exact Laws.OwnRow.tReserved low
  | init clk dio a => exact Laws.OwnRow.init clk dio a
  | setbri a => exact Laws.OwnRow.setbri a
  | setpwr a => exact Laws.OwnRow.setpwr a
  | wrmem a len data => exact Laws.OwnRow.wrmem a len data
  | clear => exact Laws.OwnRow.clear
  | refresh => exact Laws.OwnRow.refresh
  | showint a => exact Laws.OwnRow.showint a
  | showflt1 a => exact Laws.OwnRow.showflt1 a
  | cReserved low => exact Laws.OwnRow.cReserved low

/-- A request with the opcode bits of an instruction's encoding is on its port and matches its row alone. -/
theorem matching_of_opcodeBits {r : Request} {i : Instr} (h : (encode i).opcodeBits = r.opcodeBits) :
    i.port = r.opcodeBits.1 ∧ r.matching.map OpRow.mnemonic = [i.mnemonic] := by
  obtain ⟨hport, hrow⟩ := ownRow i
  rw [h] at hport
  rw [Request.matching, h] at hrow
  exact ⟨hport.symm, hrow⟩

/-- Settles O4: the opcode bits of a bundle are those of its instruction's encoding, whose row is OwnRow's. -/
theorem everyBundleIsOneRow : Obligations.EveryBundleIsOneRow :=
  ⟨fun b => ⟨decodeC b, rfl, matching_of_opcodeBits (opcodeBits_encode_decodeC b)⟩,
    fun b => ⟨decodeT b, rfl, matching_of_opcodeBits (opcodeBits_encode_decodeT b)⟩⟩

/-- Settles O3: the decoder computes on each of the five words. -/
theorem sampleWordsDecode : Obligations.SampleWordsDecode :=
  ⟨by decide, by decide, rfl, rfl, by decide⟩

end Sys2Proof.Machine

/-! How operands are formed from port bits (30_encoding R93). -/

namespace Sys2Proof.Machine

theorem clamp07_toNat (v : Int) : ((clamp07 v).toNat : Int) = max 0 (min 7 v) := by
  rw [clamp07, BitVec.toNat_ofInt]
  omega

theorem onFlag_iff (a : Word) : onFlag a = true ↔ a.toInt ≠ 0 := by
  simp [onFlag, ← BitVec.toInt_inj]

/-- A start position exists only in range, and there it is the operand. -/
theorem startPosition_eq_some_iff {a : Word} {pos : BitVec 4} : startPosition a = some pos ↔ a.toInt = pos.toNat := by
  constructor
  · intro h
    have hrange : 0 ≤ a.toInt ∧ a.toInt < 16 := by
      by_contra hout
      rw [startPosition, if_neg hout] at h
      cases h
    obtain ⟨pos', hpos', hnat⟩ := startPosition_of_lt (Int.toNat_of_nonneg hrange.1).symm (by omega)
    cases h.symm.trans hpos'
    omega
  · intro h
    obtain ⟨pos', hpos', hnat⟩ := startPosition_of_lt h pos.isLt
    rw [hpos', BitVec.eq_of_toNat_eq hnat]

theorem maskByte_toNat (x : Word) : ((maskByte x).toNat : Int) = x.toInt % 256 := by
  rw [maskByte, BitVec.extractLsb'_toNat, BitVec.toInt_eq_toNat_cond]
  split <;> omega

theorem payloadBytes_getElem? {len : BitVec 5} {data : Vector Word 16} {k : Nat} {x : Word}
    (hk : k < min len.toNat 16) (hx : data.toList[k]? = some x) :
    (payloadBytes len data)[k]? = some (maskByte x) := by
  rw [payloadBytes, payloadMax, List.getElem?_map, List.getElem?_take_of_lt hk, hx, Option.map_some]

theorem addrByte_toNat (pos : BitVec 4) : (addrByte pos).toNat = 0xC0 + pos.toNat := by
  revert pos; decide

theorem dispCtlByte_toNat (on : Bool) (bri : BitVec 3) :
    (dispCtlByte on bri).toNat = 0x80 + 8 * on.toNat + bri.toNat := by
  revert on bri; decide

/-- Settles O5: one lemma per operand. -/
theorem operandsFormed : Obligations.OperandsFormed :=
  ⟨clamp07_toNat, onFlag_iff, fun _ _ => startPosition_eq_some_iff, maskByte_toNat,
    fun len data => ⟨payloadBytes_length len data, fun _ _ => payloadBytes_getElem?⟩, addrByte_toNat,
    dispCtlByte_toNat⟩

end Sys2Proof.Machine

/-! A request at the head of the inputs (30_encoding R88): an idle block runs it, a running block lets it wait. -/

namespace Sys2Proof.Machine

theorem step_of_command {s : State} {r : Request} {rest : List Input} {i : Instr} (hseq : s.seq = .idle)
    (hin : s.inbox = .command r :: rest) (hd : decode r = .instr i) : step s = exec i { s with inbox := rest } := by
  simp [step, serve, hin, hseq, runRequest_instr hd]

/-- A running block with a request waiting, or with no input, only lets the time for one event pass. -/
theorem step_of_busy {s : State} (hseq : s.seq ≠ .idle)
    (hin : s.inbox = [] ∨ ∃ q rest, s.inbox = .command q :: rest ∨ s.inbox = .start q :: rest) :
    step s = .next (emitNext s) := by
  obtain hin | ⟨q, rest, hin | hin⟩ := hin
  · exact step_of_no_input hin
  · simp [step, serve, hin, hseq]
  · simp [step, serve, hin, hseq]

/-- Settles O6: exec leaves the fields around it alone. -/
theorem stepRunsTheDecodedInstruction : Obligations.StepRunsTheDecodedInstruction := by
  intro s r rest i hseq hin hd
  have hstep := step_of_command hseq hin hd
  refine ⟨hstep, fun t ht => ?_⟩
  obtain ⟨-, -, -, ⟨hfont, hseq', hinbox, hresets, hpast⟩, -⟩ := exec_fields (hstep.symm.trans ht)
  exact ⟨hseq'.trans hseq, hinbox, hfont, hresets, hpast⟩

theorem decode_of_decodeTableWord {nbits w : Nat} {i : Instr} (h : decodeTableWord nbits w = some i) :
    decode (unpack (w % 2 ^ nbits)) = .instr i := by
  rw [decodeTableWord, decodeWord] at h
  cases hd : decode (unpack (w % 2 ^ nbits)) with
  | instr j => rw [hd] at h; cases h; rfl
  | unknownFirstByte b => rw [hd] at h; cases h

/-- Settles O7: the word is placed as a command at the head of an idle block's inputs. -/
theorem fetchWordRunsNext : Obligations.FetchWordRunsNext :=
  fun s _ _ _ h => step_of_command (s := presentNext _ s) rfl rfl (decode_of_decodeTableWord h)

/-- Settles O8: the request waits, so the step emits the next event. -/
theorem busyBlockTakesNoRequest : Obligations.BusyBlockTakesNoRequest := by
  intro s r k e todo hseq hin
  have hbusy : s.seq ≠ .idle := by rw [hseq]; exact nofun
  rw [step_of_busy hbusy hin, emitNext_running_cons hseq]
  cases todo <;> rfl

end Sys2Proof.Machine

/-! The wire commands (30_encoding R82 to R84): one byte transmitted, no register written. -/

namespace Sys2Proof.Machine

theorem keepsRegisters_emitAll (s : State) (es : List Event) : keepsRegisters s (emitAll s es) :=
  ⟨rfl, rfl, fun _ => rfl, rfl, rfl, rfl, rfl, rfl⟩

theorem emits_emitAll (s : State) (es : List Event) : emits s (emitAll s es) es :=
  ⟨rfl, levelRead_driveAll s.lvl es⟩

@[simp] theorem newEvents_emitAll (s : State) (es : List Event) : newEvents s (emitAll s es) = es := by
  simp [newEvents]

/-- What transmitting one byte does in an Active state. -/
theorem transmit_byteSeq {s : State} {d : Driver} (hmode : s.mode = .active d) (v : Byte) :
    ∃ t, transmit s (byteSeq · v) = .next t ∧ keepsRegisters s t ∧ emits s t (byteSeq d v) ∧
      (newEvents s t).length = 48 :=
  ⟨_, whenActive_active hmode _, keepsRegisters_emitAll s _, emits_emitAll s _, by simp⟩

theorem addrByte_eq_ofNat (pos : BitVec 4) : BitVec.ofNat 8 (0xC0 + pos.toNat) = addrByte pos := by
  rw [← addrByte_toNat, BitVec.ofNat_toNat, BitVec.setWidth_eq]

theorem dispCtlByte_eq_ofNat (on : Bool) (bri : BitVec 3) :
    BitVec.ofNat 8 (0x80 + 8 * on.toNat + bri.toNat) = dispCtlByte on bri := by
  rw [← dispCtlByte_toNat, BitVec.ofNat_toNat, BitVec.setWidth_eq]

/-- Settles O24: each wire command transmits its byte. -/
theorem wireCommandsAreSerialised : Obligations.WireCommandsAreSerialised := by
  intro s d hmode
  refine ⟨transmit_byteSeq hmode _, fun pos => ?_, fun on bri => ?_⟩
  · rw [addrByte_eq_ofNat]
    exact transmit_byteSeq hmode _
  · rw [dispCtlByte_eq_ofNat]
    exact transmit_byteSeq hmode _

end Sys2Proof.Machine

/-! The frame decoder over whole frames (40_transport R123): it is the device's observer with the device forgotten. -/

namespace Sys2Proof.Machine

theorem rxNext_frameSeq {d : Driver} (hpins : d.pinclk ≠ d.pindio) {r : Rx} (hpos : r.pos = .outside 0)
    (bytes : List Byte) :
    (frameSeq d bytes).foldl (rxNext d.pinclk d.pindio) r = ⟨r.frames ++ [bytes], .outside 0⟩ := by
  have hframing : breaksFraming { deviceRxStart with rx := r } (.data false) = false := by
    simp [breaksFraming, hpos, deviceRxStart]
  have hrun := congrArg DeviceRx.rx (deviceRun_frameSeq hpins hpos hframing bytes)
  rwa [deviceRun_rx] at hrun

theorem rxNext_frames {d : Driver} (hpins : d.pinclk ≠ d.pindio) (fs : List (List Byte)) {r : Rx}
    (hpos : r.pos = .outside 0) :
    (fs.flatMap (frameSeq d)).foldl (rxNext d.pinclk d.pindio) r = ⟨r.frames ++ fs, .outside 0⟩ := by
  induction fs generalizing r with
  | nil => simp [← hpos]
  | cons bytes fs ih =>
    rw [List.flatMap_cons, List.foldl_append, rxNext_frameSeq hpins hpos, ih rfl, List.append_assoc,
      List.singleton_append]

/-- Settles O27: by induction on the list of frames, each read from outside a frame to outside a frame. -/
theorem framesAreDecodedBack : Obligations.FramesAreDecodedBack := by
  intro d trace fs hpins hpos
  rw [frames, frames, rxRun_append, rxNext_frames hpins fs hpos]
  exact ⟨rfl, rfl⟩

end Sys2Proof.Machine

/-! The sampling observer over a driver's sequences (40_transport R122), on distinct pins. -/

namespace Sys2Proof.Machine

theorem samplerAfter_append (clk dio : PinId) (m : Sampler) (es fs : List Event) :
    samplerAfter clk dio m (es ++ fs) = samplerAfter clk dio (samplerAfter clk dio m es) fs :=
  List.foldl_append

section Sampling
variable {d : Driver} {m : Sampler}

@[simp] theorem sampleAt_wait (clk : PinId) : sampleAt clk m .wait = [] := rfl

@[simp] theorem sampleAt_clkEvent (b : Level) :
    sampleAt d.pinclk m (clkEvent d b) = if b = true ∧ m.clock = some false then [m.data] else [] := by
  simp [sampleAt, clkEvent]

@[simp] theorem sampleAt_dioEvent (hpins : d.pinclk ≠ d.pindio) (b : Level) :
    sampleAt d.pinclk m (dioEvent d b) = [] := by
  simp [sampleAt, dioEvent, hpins.symm]

/-- A start leaves both pins low and samples nothing. -/
theorem sampledFrom_startSeq (hpins : d.pinclk ≠ d.pindio) : sampledFrom d.pinclk d.pindio m (startSeq d) = [] := by
  simp [sampledFrom, startSeq, hpins]

theorem samplerAfter_startSeq (hpins : d.pinclk ≠ d.pindio) :
    samplerAfter d.pinclk d.pindio m (startSeq d) = ⟨some false, some false⟩ := by
  simp [samplerAfter, startSeq, hpins]

/-- From clock 0 the clock of a stop rises once, while data is 0. -/
theorem sampledFrom_stopSeq (hpins : d.pinclk ≠ d.pindio) (hclock : m.clock = some false) :
    sampledFrom d.pinclk d.pindio m (stopSeq d) = [some false] := by
  simp [sampledFrom, stopSeq, hpins, hclock]

/-- The clock of a bit rises only if it was 0 before. -/
theorem sampledFrom_bitSeq (hpins : d.pinclk ≠ d.pindio) (b : Level) :
    sampledFrom d.pinclk d.pindio m (bitSeq d b) = if m.clock = some false then [some b] else [] := by
  simp [sampledFrom, bitSeq, hpins]

theorem samplerAfter_bitSeq (hpins : d.pinclk ≠ d.pindio) (b : Level) :
    samplerAfter d.pinclk d.pindio m (bitSeq d b) = ⟨some false, some b⟩ := by
  simp [samplerAfter, bitSeq, hpins]

/-- From clock 0 every bit is sampled, and the clock is 0 again. -/
theorem sampledFrom_bits (hpins : d.pinclk ≠ d.pindio) (hclock : m.clock = some false) (bits : List Bool) :
    sampledFrom d.pinclk d.pindio m (bits.flatMap (bitSeq d)) = bits.map some ∧
      (samplerAfter d.pinclk d.pindio m (bits.flatMap (bitSeq d))).clock = some false := by
  induction bits generalizing m with
  | nil => exact ⟨rfl, hclock⟩
  | cons b bits ih =>
    obtain ⟨hsampled, hafter⟩ := ih (m := ⟨some false, some b⟩) rfl
    constructor
    · rw [List.flatMap_cons, sampledFrom_append, sampledFrom_bitSeq hpins, if_pos hclock, samplerAfter_bitSeq hpins,
        hsampled, List.map_cons, List.singleton_append]
    · rwa [List.flatMap_cons, samplerAfter_append, samplerAfter_bitSeq hpins]

/-- From a clock not known to be 0 the first bit is lost. -/
theorem sampledFrom_bits_drop (hpins : d.pinclk ≠ d.pindio) (hclock : m.clock ≠ some false) (bits : List Bool) :
    sampledFrom d.pinclk d.pindio m (bits.flatMap (bitSeq d)) = (bits.drop 1).map some := by
  cases bits with
  | nil => rfl
  | cons b bits =>
    obtain ⟨hsampled, -⟩ := sampledFrom_bits (m := ⟨some false, some b⟩) hpins rfl bits
    rw [List.flatMap_cons, sampledFrom_append, sampledFrom_bitSeq hpins, if_neg hclock, samplerAfter_bitSeq hpins,
      hsampled]
    rfl

end Sampling

theorem wireBits_eq_range (v : Byte) : wireBits v = (List.range 8).map v.getLsbD := rfl

theorem bytes_eq_bits (d : Driver) (bytes : List Byte) :
    bytes.flatMap (byteSeq d) = (bytes.flatMap wireBits).flatMap (bitSeq d) :=
  List.flatMap_assoc.symm

/-- Settles O26: the start samples nothing, the bytes are one run of bits, and the stop's clock rise samples one 0. -/
theorem frameSamplesItsBits : Obligations.FrameSamplesItsBits := by
  intro d bytes m hpins
  obtain ⟨hsampled, hclock⟩ := sampledFrom_bits (m := ⟨some false, some false⟩) hpins rfl (bytes.flatMap wireBits)
  rw [frameSeq, List.append_assoc, sampledFrom_append, sampledFrom_startSeq hpins, samplerAfter_startSeq hpins,
    sampledFrom_append, bytes_eq_bits, hsampled, sampledFrom_stopSeq hpins hclock, List.map_flatMap]
  rfl

end Sys2Proof.Machine

/-! The levels a driver's sequences leave (40_transport R121), on distinct or equal pins. -/

namespace Sys2Proof.Machine

theorem lastDriven_append_of_some {p : PinId} {fs : List Event} {b : Level} (h : lastDriven p fs = some b)
    (es : List Event) : lastDriven p (es ++ fs) = some b := by
  rw [lastDriven_append, h, Option.some_or]

theorem pinLevel_of_emits {s t : State} {es : List Event} {p : PinId} {b : Level} (h : emits s t es)
    (hlast : lastDriven p es = some b) : pinLevel t p = b := by
  obtain ⟨-, hlevel⟩ := h
  rw [pinLevel, hlevel, hlast]
  rfl

section Levels
variable (d : Driver)

theorem lastDriven_clkEvent (b : Level) : lastDriven d.pinclk [clkEvent d b] = some b := by
  simp [lastDriven, lastLevel, clkEvent]

theorem lastDriven_dioEvent (b : Level) : lastDriven d.pindio [dioEvent d b] = some b := by
  simp [lastDriven, lastLevel, dioEvent]

theorem lastDriven_startSeq :
    lastDriven d.pinclk (startSeq d) = some false ∧ lastDriven d.pindio (startSeq d) = some false := by
  simp [lastDriven, startSeq, lastLevel, clkEvent, dioEvent]

/-- A bit ends with the clock write, which is the last on the data pin too if both are one pin (70_reset R262). -/
theorem lastDriven_bitSeq (b : Level) : lastDriven d.pinclk (bitSeq d b) = some false ∧
    lastDriven d.pindio (bitSeq d b) = some (if d.pinclk = d.pindio then false else b) := by
  by_cases hpins : d.pinclk = d.pindio <;> simp [lastDriven, bitSeq, lastLevel, clkEvent, dioEvent, hpins]

/-- A byte leaves the levels of its last bit. -/
theorem lastDriven_byteSeq (v : Byte) : lastDriven d.pinclk (byteSeq d v) = some false ∧
    lastDriven d.pindio (byteSeq d v) = some (if d.pinclk = d.pindio then false else v.getLsbD 7) := by
  have hsplit : byteSeq d v = ((wireBits v).take 7).flatMap (bitSeq d) ++ bitSeq d (v.getLsbD 7) := rfl
  obtain ⟨hclk, hdio⟩ := lastDriven_bitSeq d (v.getLsbD 7)
  rw [hsplit]
  exact ⟨lastDriven_append_of_some hclk _, lastDriven_append_of_some hdio _⟩

/-- Events that leave both pins high, the idle state of the bus. -/
def LeavesHigh (es : List Event) : Prop := lastDriven d.pinclk es = some true ∧ lastDriven d.pindio es = some true

variable {d}

theorem LeavesHigh.append {fs : List Event} (h : LeavesHigh d fs) (es : List Event) : LeavesHigh d (es ++ fs) := by
  obtain ⟨hclk, hdio⟩ := h
  exact ⟨lastDriven_append_of_some hclk es, lastDriven_append_of_some hdio es⟩

theorem leavesHigh_stopSeq : LeavesHigh d (stopSeq d) := by
  simp [LeavesHigh, lastDriven, stopSeq, lastLevel, clkEvent, dioEvent]

/-- A frame ends in a stop. -/
theorem leavesHigh_frameSeq (bytes : List Byte) : LeavesHigh d (frameSeq d bytes) := leavesHigh_stopSeq.append _

/-- A memory write ends in a display control. -/
theorem leavesHigh_memWriteSeq (pos : BitVec 4) (payload : List Byte) (on : Bool) (bri : BitVec 3) :
    LeavesHigh d (memWriteSeq d pos payload on bri) := (leavesHigh_frameSeq _).append _

section Emitted
variable {s t : State} {es : List Event}

/-- Events that drive both pins last to known levels leave them there. -/
theorem pinLevels_of_emits {clk dio : Level} (hemits : emits s t es)
    (hlast : lastDriven d.pinclk es = some clk ∧ lastDriven d.pindio es = some dio) :
    pinLevel t d.pinclk = clk ∧ pinLevel t d.pindio = dio := by
  obtain ⟨hclk, hdio⟩ := hlast
  exact ⟨pinLevel_of_emits hemits hclk, pinLevel_of_emits hemits hdio⟩

theorem LeavesHigh.idleHigh (h : LeavesHigh d es) (hemits : emits s t es) (hmode : t.mode = .active d) :
    idleHigh t := by
  intro d' hmode'
  cases hmode.symm.trans hmode'
  exact pinLevels_of_emits hemits h

end Emitted

end Levels

end Sys2Proof.Machine

/-! The transport requests one by one (40_transport R111 to R119): each transmits its sequence and writes no register. -/

namespace Sys2Proof.Machine

theorem transmit_active {s : State} {d : Driver} (hmode : s.mode = .active d) (seq : Driver → List Event) :
    ∃ t, transmit s seq = .next t ∧ keepsRegisters s t ∧ emits s t (seq d) ∧ newEvents s t = seq d :=
  ⟨_, whenActive_active hmode _, keepsRegisters_emitAll s _, emits_emitAll s _, newEvents_emitAll s _⟩

/-- A transport bundle decodes by its opcode, with its own operands. -/
theorem decode_tport_of_op {b : TBundle} {op : BitVec 4} (h : b.op = op) :
    decode (.tport b) = .instr (decodeT { b with op := op }) := by
  rw [← h]; rfl

/-- Settles O17: each transmits one write, whatever the levels are. -/
theorem setClockAndDataDriveOnePin : Obligations.SetClockAndDataDriveOnePin := by
  refine ⟨fun b => ⟨decode_tport_of_op, decode_tport_of_op⟩, fun s d lvl hmode => ⟨?_, ?_⟩⟩
  · obtain ⟨t, hexec, hkeeps, hemits, -⟩ := transmit_active hmode fun d => [clkEvent d lvl]
    exact ⟨t, hexec, hkeeps, hemits⟩
  · obtain ⟨t, hexec, hkeeps, hemits, -⟩ := transmit_active hmode fun d => [dioEvent d lvl]
    exact ⟨t, hexec, hkeeps, hemits⟩

/-- Settles O18: T.START transmits `startSeq`. -/
theorem startDrivesBothLow : Obligations.StartDrivesBothLow := by
  refine ⟨fun b => decode_tport_of_op, fun s d hmode => ?_⟩
  obtain ⟨t, hexec, hkeeps, hemits, -⟩ := transmit_active hmode startSeq
  exact ⟨t, hexec, hkeeps, hemits, pinLevels_of_emits hemits (lastDriven_startSeq d)⟩

/-- Settles O19: T.STOP transmits `stopSeq`. -/
theorem stopRaisesClockThenData : Obligations.StopRaisesClockThenData := by
  refine ⟨fun b => decode_tport_of_op, fun s d hmode => ?_⟩
  obtain ⟨t, hexec, hkeeps, hemits, hnew⟩ := transmit_active hmode stopSeq
  obtain ⟨hclk, hdio⟩ := pinLevels_of_emits hemits leavesHigh_stopSeq
  refine ⟨t, hexec, hkeeps, hemits, hclk, hdio, fun hpins m hclock => ?_⟩
  rw [hnew]
  exact sampledFrom_stopSeq hpins hclock

/-- Settles O20: T.WBYTE transmits the byte's bits in wire order, and the sampler reads them back as a run of bits. -/
theorem writeByteShiftsLeastSignificantFirst : Obligations.WriteByteShiftsLeastSignificantFirst := by
  refine ⟨fun b => decode_tport_of_op, fun s d v hmode => ?_⟩
  obtain ⟨t, hexec, hkeeps, hemits, hnew⟩ := transmit_active hmode fun d => byteSeq d v
  obtain ⟨hclk, hdio⟩ := pinLevels_of_emits hemits (lastDriven_byteSeq d v)
  refine ⟨t, hexec, hkeeps, hemits, hclk, hdio, fun hpins m => ?_⟩
  rw [hnew]
  constructor
  · intro hclock
    obtain ⟨hsampled, -⟩ := sampledFrom_bits hpins hclock (wireBits v)
    exact hsampled
  · intro hclock
    exact sampledFrom_bits_drop hpins (by simp [hclock]) (wireBits v)

/-- R84's byte, put together from its fields. -/
theorem dispCtlByte_eq_fields (on : Bool) (bri : BitVec 3) :
    0x80#8 ||| (BitVec.ofBool on).zeroExtend 8 <<< 3 ||| bri.zeroExtend 8 = dispCtlByte on bri := by
  revert on bri; decide

/-- What transmitting a frame of one byte does in an Active state. -/
theorem transmit_oneByteFrame {s : State} {d : Driver} (hmode : s.mode = .active d) (v : Byte) :
    ∃ t, transmit s (frameSeq · [v]) = .next t ∧ keepsRegisters s t ∧
      emits s t (startSeq d ++ byteSeq d v ++ stopSeq d) ∧ (newEvents s t).length = 58 := by
  obtain ⟨t, hexec, hkeeps, hemits, hnew⟩ := transmit_active hmode (frameSeq · [v])
  exact ⟨t, hexec, hkeeps, by simpa [frameSeq] using hemits, by simp [hnew]⟩

/-- Settles O22: each transmits a frame of one byte. -/
theorem oneByteTransactions : Obligations.OneByteTransactions := by
  refine ⟨fun b => ⟨decode_tport_of_op, decode_tport_of_op⟩, fun s d hmode => ⟨?_, fun on bri => ?_⟩⟩
  · exact transmit_oneByteFrame hmode _
  · rw [dispCtlByte_eq_fields]
    exact transmit_oneByteFrame hmode _

theorem transportPayload_of_le {len : BitVec 5} (hlen : len.toNat ≤ 16) (data : Vector Byte 16) :
    transportPayload len data = data.toList.take len.toNat := if_pos hlen

theorem transportPayload_length {len : BitVec 5} (hlen : len.toNat ≤ 16) (data : Vector Byte 16) :
    (transportPayload len data).length = len.toNat := by
  simp [transportPayload_of_le hlen, hlen]

/-- Settles O23: T.ADDRWR transmits the frame of the address byte and its payload. -/
theorem addressWriteFrame : Obligations.AddressWriteFrame := by
  refine ⟨fun b => decode_tport_of_op, fun s d pos len data hmode => ?_⟩
  obtain ⟨t, hexec, hkeeps, hemits, hnew⟩ :=
    transmit_active hmode fun d => addrWriteSeq d pos (transportPayload len data)
  refine ⟨t, transportPayload len data, hexec, hkeeps, fun hlen => ⟨transportPayload_of_le hlen data, ?_⟩, ?_⟩
  · simp only [hnew, addrWriteSeq, frameSeq_length, List.length_cons, transportPayload_length hlen]
    omega
  · simpa [addrWriteSeq, frameSeq, addrByte] using hemits

end Sys2Proof.Machine

/-! What an instruction emits, said once (40_transport, 42_display_controller, 43_renderers): the levels, the counts and the
pins driven are read off `emission`, which `exec_effect` and `exec_transport` tie to `exec`. -/

namespace Sys2Proof.Machine

/-- The mirror's first four bytes, as REFRESH sends them (42_display R161). -/
def digitCells (m : Memory) : List Byte := [memRead m 0, memRead m 1, memRead m 2, memRead m 3]

/-- The events of an instruction given in `s`, on the driver `d` in force after its register writes; none for a reserved
opcode and for a WRMEM outside positions 0 to 15. -/
def emission (i : Instr) (s : State) (d : Driver) : List Event :=
  match i with
  | .wData => byteSeq d dataCmdByte
  | .wAddr pos => byteSeq d (addrByte pos)
  | .wDisp on bri => byteSeq d (dispCtlByte on bri)
  | .tSetclk lvl => [clkEvent d lvl]
  | .tSetdat lvl => [dioEvent d lvl]
  | .tStart => startSeq d
  | .tStop => stopSeq d
  | .tWbyte byte => byteSeq d byte
  | .tDatacmd => dataCmdSeq d
  | .tDispctl on bri => dispCtlSeq d on bri
  | .tAddrwr pos len data => addrWriteSeq d pos (transportPayload len data)
  | .init _ _ _ => handshakeSeq Config.hsWait d ++ dataCmdSeq d ++ dispCtlSeq d true d.bright
  | .setbri _ => dataCmdSeq d ++ dispCtlSeq d s.power d.bright
  | .setpwr a => dispCtlSeq d (onFlag a) d.bright
  | .wrmem a len data =>
    (startPosition a).elim [] fun pos => memWriteSeq d pos (payloadBytes len data) s.power d.bright
  | .clear => memWriteSeq d 0 [0x00#8, 0x00#8, 0x00#8, 0x00#8] s.power d.bright
  | .refresh => memWriteSeq d 0 (digitCells s.gram) s.power d.bright
  | .showint a => memWriteSeq d 0 (digitCells (mirrorStore s.gram 0 (intSegments s.font a.toInt))) s.power d.bright
  | .showflt1 a => memWriteSeq d 0 (digitCells (mirrorStore s.gram 0 (fltSegments s.font a.toInt))) s.power d.bright
  | .tReserved _ | .cReserved _ => []

/-- What an instruction that answers a next state has done: nothing, where it is a no-op, or its register writes and then
its emission on the driver they leave. -/
inductive Effect (i : Instr) (s : State) : State → Prop where
  | nothing (quiet : ∀ d, s.mode = .active d → emission i s d = []) : Effect i s s
  | emitted (u : State) (d : Driver) (writes : WritesRegisters s u) (active : u.mode = .active d)
      (nonempty : emission i s d ≠ []) : Effect i s (emitAll u (emission i s d))

/-- The guard of an instruction whose effect in an Active state is known. -/
theorem effect_of_whenActive {i : Instr} {s t : State} {k : Driver → State} (h : whenActive s k = .next t)
    (hactive : ∀ d, s.mode = .active d → Effect i s (k d)) : Effect i s t := by
  rcases whenActive_next h with ⟨hmode, rfl⟩ | ⟨d, hmode, rfl⟩
  · exact .nothing fun d hd => nomatch hmode.symm.trans hd
  · exact hactive d hmode

/-- Every instruction of TPORT and WIRE8 transmits its emission and does nothing else. -/
theorem exec_transport {i : Instr} (hport : i.port ≠ .cport) (s : State) :
    exec i s = transmit s (emission i s) := by
  cases i with
  | wData | wAddr _ | wDisp _ _ | tSetclk _ | tSetdat _ | tStart | tStop | tWbyte _ | tDatacmd | tDispctl _ _
  | tAddrwr _ _ _ => rfl
  | tReserved _ =>
    cases hmode : s.mode with
    | uninitialized => exact (whenActive_uninitialized hmode _).symm
    | active d => exact ((whenActive_active hmode _).trans (congrArg _ (emitAll_nil s))).symm
  | _ => exact absurd rfl hport

theorem effect_of_transmit {i : Instr} {s t : State} (h : transmit s (emission i s) = .next t) :
    Effect i s t := by
  refine effect_of_whenActive h fun d hmode => ?_
  by_cases hne : emission i s d = []
  · rw [hne, emitAll_nil]
    refine .nothing fun d' hmode' => ?_
    cases hmode.symm.trans hmode'
    exact hne
  · exact .emitted s d (.refl s) hmode hne

theorem writesRegisters_gram (s : State) (a : Nat) (bs : List Byte) :
    WritesRegisters s { s with gram := mirrorStore s.gram a bs } :=
  ⟨rfl, rfl, rfl, rfl, rfl, rfl, rfl, fun h => mirrorStore_wf h a bs⟩

/-- A renderer stores twice before it emits: its segments, then what it reads back. -/
theorem writesRegisters_gram_twice (s : State) (a b : Nat) (bs cs : List Byte) :
    WritesRegisters s { s with gram := mirrorStore (mirrorStore s.gram a bs) b cs } :=
  ⟨rfl, rfl, rfl, rfl, rfl, rfl, rfl, fun h => mirrorStore_wf (mirrorStore_wf h a bs) b cs⟩

theorem exec_effect {i : Instr} {s t : State} (h : exec i s = .next t) : Effect i s t := by
  cases i with
  | wData | wAddr _ | wDisp _ _ | tSetclk _ | tSetdat _ | tStart | tStop | tWbyte _ | tDatacmd | tDispctl _ _
  | tAddrwr _ _ _ | tReserved _ => exact effect_of_transmit ((exec_transport Port.noConfusion s).symm.trans h)
  | init clk dio a =>
    cases h
    exact .emitted { s with mode := .active ⟨clk, dio, brightnessOperand a⟩, power := true, gram := [] } _
      ⟨rfl, rfl, rfl, rfl, rfl, rfl, rfl, fun _ => memory_nil_wf⟩ rfl (List.cons_ne_nil _ _)
  | setbri a =>
    exact effect_of_whenActive h fun d _ => .emitted (setDriver s (d.withBrightness a)) _
      ⟨rfl, rfl, rfl, rfl, rfl, rfl, rfl, id⟩ rfl (List.cons_ne_nil _ _)
  | setpwr a =>
    exact effect_of_whenActive h fun d hmode => .emitted { s with power := onFlag a } d
      ⟨rfl, rfl, rfl, rfl, rfl, rfl, rfl, id⟩ hmode (List.cons_ne_nil _ _)
  | wrmem a len data =>
    refine effect_of_whenActive h fun d hmode => ?_
    cases hpos : startPosition a with
    | none => exact .nothing fun d _ => by simp [emission, hpos]
    | some pos =>
      have hemission : emission (.wrmem a len data) s d =
          memWriteSeq d pos (payloadBytes len data) s.power d.bright := by simp [emission, hpos]
      have hne : emission (.wrmem a len data) s d ≠ [] := by rw [hemission]; exact List.cons_ne_nil _ _
      have heffect := Effect.emitted _ d (writesRegisters_gram s pos.toNat (payloadBytes len data)) hmode hne
      rwa [hemission] at heffect
  | clear | refresh =>
    exact effect_of_whenActive h fun d hmode => .emitted _ d (writesRegisters_gram s _ _) hmode (List.cons_ne_nil _ _)
  | showint _ | showflt1 _ =>
    exact effect_of_whenActive h fun d hmode =>
      .emitted _ d (writesRegisters_gram_twice s _ _ _ _) hmode (List.cons_ne_nil _ _)
  | cReserved _ => cases h; exact .nothing fun _ _ => rfl

/-! ### The pins driven -/

/-- Events whose pin writes all go to the pins of a binding. -/
def OnBoundPins (d : Driver) (es : List Event) : Prop := ∀ p b, Event.pin p b ∈ es → p = d.pinclk ∨ p = d.pindio

section BoundPins
variable {d : Driver}

theorem OnBoundPins.append {es fs : List Event} (hes : OnBoundPins d es) (hfs : OnBoundPins d fs) :
    OnBoundPins d (es ++ fs) :=
  fun p b hmem => (List.mem_append.mp hmem).elim (hes p b) (hfs p b)

theorem onBoundPins_flatMap {α : Type} {xs : List α} {f : α → List Event} (h : ∀ x, OnBoundPins d (f x)) :
    OnBoundPins d (xs.flatMap f) := by
  intro p b hmem
  obtain ⟨x, -, hx⟩ := List.mem_flatMap.mp hmem
  exact h x p b hx

theorem onBoundPins_startSeq : OnBoundPins d (startSeq d) := by
  simp [OnBoundPins, startSeq, clkEvent, dioEvent]

theorem onBoundPins_stopSeq : OnBoundPins d (stopSeq d) := by
  simp [OnBoundPins, stopSeq, clkEvent, dioEvent]

theorem onBoundPins_byteSeq (v : Byte) : OnBoundPins d (byteSeq d v) :=
  onBoundPins_flatMap fun b => by simp [OnBoundPins, bitSeq, clkEvent, dioEvent]; tauto

theorem onBoundPins_frameSeq (bytes : List Byte) : OnBoundPins d (frameSeq d bytes) :=
  (onBoundPins_startSeq.append (onBoundPins_flatMap onBoundPins_byteSeq)).append onBoundPins_stopSeq

end BoundPins

theorem onBoundPins_emission {i : Instr} (hport : i.port ≠ .cport) (s : State) (d : Driver) :
    OnBoundPins d (emission i s d) := by
  cases i with
  | wData | wAddr _ | wDisp _ _ | tWbyte _ => exact onBoundPins_byteSeq _
  | tSetclk _ | tSetdat _ => simp [OnBoundPins, emission, clkEvent, dioEvent]
  | tStart => exact onBoundPins_startSeq
  | tStop => exact onBoundPins_stopSeq
  | tDatacmd | tDispctl _ _ | tAddrwr _ _ _ => exact onBoundPins_frameSeq _
  | tReserved _ => exact nofun
  | _ => exact absurd rfl hport

/-- Settles O25: the instruction transmits its emission, all of it on the bound pins, and the guard keeps an Uninitialized
state as it is. -/
theorem transportOnlyEmits : Obligations.TransportOnlyEmits := by
  intro i s t hport hexec
  rw [exec_transport hport] at hexec
  rcases whenActive_next hexec with ⟨hmode, rfl⟩ | ⟨d, hmode, rfl⟩
  · refine ⟨?_, fun _ => rfl, [], ?_, fun _ _ => nofun⟩
    · simpa using keepsRegisters_emitAll t []
    · simpa using emits_emitAll t []
  · refine ⟨keepsRegisters_emitAll s _, fun hun => ?_, _, emits_emitAll s _, ?_⟩
    · cases hmode.symm.trans hun
    · exact fun p b hmem => ⟨d, hmode, onBoundPins_emission hport s d p b hmem⟩

/-! ### The levels left -/

/-- A command that emits at all ends in a frame. -/
theorem leavesHigh_emission {i : Instr} {s : State} {d : Driver} (hport : i.port = .cport)
    (hne : emission i s d ≠ []) : LeavesHigh d (emission i s d) := by
  cases i with
  | init _ _ _ | setbri _ => exact (leavesHigh_frameSeq _).append _
  | setpwr _ => exact leavesHigh_frameSeq _
  | clear | refresh | showint _ | showflt1 _ => exact leavesHigh_memWriteSeq ..
  | wrmem a len data =>
    simp only [emission] at hne ⊢
    cases hpos : startPosition a with
    | none => simp [hpos] at hne
    | some pos => exact leavesHigh_memWriteSeq ..
  | cReserved _ => exact absurd rfl hne
  | _ => cases hport

/-- Settles O28: the levels are those the emission drives last; a state whose trace grew has an emission. -/
theorem levelsAfterEachOperation : Obligations.LevelsAfterEachOperation := by
  intro i s t d hexec hmode htrace
  cases exec_effect hexec with
  | nothing => exact absurd rfl htrace
  | emitted u d' _ hu hne =>
    cases hu.symm.trans hmode
    have hemits : emits u (emitAll u (emission i s d)) (emission i s d) := emits_emitAll u _
    cases i with
    | tSetclk lvl => exact pinLevel_of_emits hemits (lastDriven_clkEvent d lvl)
    | tSetdat lvl => exact pinLevel_of_emits hemits (lastDriven_dioEvent d lvl)
    | tStart => exact pinLevels_of_emits hemits (lastDriven_startSeq d)
    | tWbyte v => exact pinLevels_of_emits hemits (lastDriven_byteSeq d v)
    | wData => simpa [dataCmdByte] using pinLevels_of_emits hemits (lastDriven_byteSeq d dataCmdByte)
    | wAddr pos => simpa [addrByte] using pinLevels_of_emits hemits (lastDriven_byteSeq d (addrByte pos))
    | wDisp on bri => simpa [dispCtlByte] using pinLevels_of_emits hemits (lastDriven_byteSeq d (dispCtlByte on bri))
    | tStop => exact pinLevels_of_emits hemits leavesHigh_stopSeq
    | tDatacmd | tDispctl _ _ | tAddrwr _ _ _ => exact pinLevels_of_emits hemits (leavesHigh_frameSeq _)
    | tReserved _ => exact absurd rfl hne
    | _ => exact pinLevels_of_emits hemits (leavesHigh_emission rfl hne)

/-- Settles O41: a command that does something leaves both pins high, and INIT always does. -/
theorem commandsKeepTheBusIdle : Obligations.CommandsKeepTheBusIdle := by
  intro i s t hport hexec
  cases exec_effect hexec with
  | nothing quiet =>
    refine ⟨id, fun clk dio a hinit d hmode => ?_⟩
    subst hinit
    exact absurd (quiet d hmode) (List.cons_ne_nil _ _)
  | emitted u d _ hu hne =>
    have hidle := (leavesHigh_emission hport hne).idleHigh (emits_emitAll u _) hu
    exact ⟨fun _ => hidle, fun _ _ _ _ => hidle⟩

/-! ### The counts -/

theorem length_eq_pinWrites_add_waits (es : List Event) : es.length = pinWrites es + waits es := by
  simpa [pinWrites, waits] using List.length_eq_countP_add_countP Event.isPinWrite (l := es)

theorem pinWrites_append (es fs : List Event) : pinWrites (es ++ fs) = pinWrites es + pinWrites fs :=
  List.countP_append

theorem waits_append (es fs : List Event) : waits (es ++ fs) = waits es + waits fs := List.countP_append

/-- As many pin writes as waits, `n` of each. -/
def Balanced (es : List Event) (n : Nat) : Prop := pinWrites es = n ∧ waits es = n

theorem Balanced.append {es fs : List Event} {m n : Nat} (hes : Balanced es m) (hfs : Balanced fs n) :
    Balanced (es ++ fs) (m + n) := by
  obtain ⟨hwrites, hwaits⟩ := hes
  obtain ⟨hwrites', hwaits'⟩ := hfs
  exact ⟨by rw [pinWrites_append, hwrites, hwrites'], by rw [waits_append, hwaits, hwaits']⟩

section Counts
variable (d : Driver)

theorem balanced_startSeq : Balanced (startSeq d) 2 := ⟨rfl, rfl⟩

theorem balanced_stopSeq : Balanced (stopSeq d) 3 := ⟨rfl, rfl⟩

theorem balanced_byteSeq (v : Byte) : Balanced (byteSeq d v) 24 := ⟨rfl, rfl⟩

theorem balanced_bytes (bytes : List Byte) : Balanced (bytes.flatMap (byteSeq d)) (24 * bytes.length) := by
  induction bytes with
  | nil => exact ⟨rfl, rfl⟩
  | cons v bytes ih =>
    rw [List.flatMap_cons, List.length_cons, Nat.mul_succ, Nat.add_comm]
    exact (balanced_byteSeq d v).append ih

theorem balanced_frameSeq (bytes : List Byte) : Balanced (frameSeq d bytes) (5 + 24 * bytes.length) := by
  have hsum : 5 + 24 * bytes.length = 2 + 24 * bytes.length + 3 := by omega
  rw [hsum]
  exact ((balanced_startSeq d).append (balanced_bytes d bytes)).append (balanced_stopSeq d)

theorem balanced_dataCmd_dispCtl (on : Bool) (bri : BitVec 3) :
    Balanced (dataCmdSeq d ++ dispCtlSeq d on bri) 58 :=
  (balanced_frameSeq d _).append (balanced_frameSeq d _)

theorem balanced_memWriteSeq (pos : BitVec 4) (payload : List Byte) (on : Bool) (bri : BitVec 3) :
    Balanced (memWriteSeq d pos payload on bri) (87 + 24 * payload.length) := by
  have hsum : 87 + 24 * payload.length = 29 + (5 + 24 * (payload.length + 1)) + 29 := by omega
  rw [hsum]
  exact ((balanced_frameSeq d _).append (balanced_frameSeq d _)).append (balanced_frameSeq d _)

/-- The handshake has its two waits only under HS_WAIT (log 5). -/
theorem handshakeSeq_counts (hsWait : Bool) :
    pinWrites (handshakeSeq hsWait d) = 2 ∧ waits (handshakeSeq hsWait d) = if hsWait then 2 else 0 := by
  cases hsWait <;> exact ⟨rfl, rfl⟩

end Counts

/-- In an Active state the new events are the emission, on the driver it leaves. -/
theorem newEvents_eq_emission {i : Instr} {s t : State} {d : Driver} (hmode : s.mode = .active d)
    (h : exec i s = .next t) : ∃ d', newEvents s t = emission i s d' := by
  cases exec_effect h with
  | nothing quiet => exact ⟨d, by rw [quiet d hmode]; simp [newEvents]⟩
  | emitted u d' writes => exact ⟨d', by simp [newEvents, writes.trace]⟩

/-- Settles O29: the counts of the emission, frame by frame. -/
theorem eventCounts : Obligations.EventCounts := by
  intro i s t d hmode hexec
  obtain ⟨d', hnew⟩ := newEvents_eq_emission hmode hexec
  rw [hnew]
  refine ⟨length_eq_pinWrites_add_waits _, ?_⟩
  cases i with
  | tSetclk _ | tSetdat _ => exact ⟨rfl, rfl⟩
  | tStart => exact balanced_startSeq d'
  | tStop => exact balanced_stopSeq d'
  | tWbyte _ | wData | wAddr _ | wDisp _ _ => exact balanced_byteSeq d' _
  | tDatacmd | tDispctl _ _ | setpwr _ => exact balanced_frameSeq d' _
  | tAddrwr pos len data =>
    obtain ⟨hwrites, hwaits⟩ := balanced_frameSeq d' (addrByte pos :: transportPayload len data)
    refine ⟨hwaits.trans hwrites.symm, fun hlen => hwrites.trans ?_⟩
    rw [List.length_cons, transportPayload_length hlen]
    omega
  | init clk dio a =>
    have hsplit : emission (.init clk dio a) s d' =
        handshakeSeq Config.hsWait d' ++ (dataCmdSeq d' ++ dispCtlSeq d' true d'.bright) := List.append_assoc ..
    obtain ⟨hwrites, hwaits⟩ := handshakeSeq_counts d' Config.hsWait
    obtain ⟨hwrites', hwaits'⟩ := balanced_dataCmd_dispCtl d' true d'.bright
    rw [hsplit, pinWrites_append, waits_append, hwrites, hwaits, hwrites', hwaits']
    exact ⟨rfl, by split <;> rfl⟩
  | setbri _ => exact balanced_dataCmd_dispCtl d' ..
  | clear | refresh | showint _ | showflt1 _ => exact balanced_memWriteSeq d' ..
  | wrmem a len data =>
    by_cases hrange : 0 ≤ a.toInt ∧ a.toInt < 16
    · obtain ⟨hwrites, hwaits⟩ := balanced_memWriteSeq d' (a.extractLsb' 0 4) (payloadBytes len data) s.power d'.bright
      rw [payloadBytes_length] at hwrites hwaits
      simp [emission, startPosition, hrange, hwrites, hwaits]
    · simp [emission, startPosition, hrange, pinWrites, waits]
  | tReserved _ | cReserved _ => exact ⟨rfl, rfl⟩

end Sys2Proof.Machine

/-! The font table (41_font_encoder R140 to R146): what a lookup can answer, what the constraint on a table says of it, and
that no step writes the table in force. -/

namespace Sys2Proof.Machine

/-- The twelve patterns of a table, in the order of R142. -/
def FontTable.patterns (t : FontTable) : List Byte :=
  [t.d0, t.d1, t.d2, t.d3, t.d4, t.d5, t.d6, t.d7, t.d8, t.d9, t.minus, t.blank]

/-- The constraint, clause by clause: the six values D00 fixes (R142), and bit 7 of every pattern (R144). -/
theorem FontTable.admissible_iff (t : FontTable) :
    t.admissible = true ↔
      (t.d1 = 0x06#8 ∧ t.d2 = 0x5B#8 ∧ t.d3 = 0x4F#8 ∧ t.d4 = 0x66#8 ∧ t.d5 = 0x6D#8 ∧ t.blank = 0x00#8) ∧
        ∀ p ∈ t.patterns, p.getLsbD 7 = false := by
  simp [admissible, patterns, and_assoc]

/-- Everything a lookup can answer: one of the table's patterns, or blank. -/
theorem fontLookup_mem (t : FontTable) (c : Byte) : fontLookup t c ∈ t.patterns ∨ fontLookup t c = 0x00#8 := by
  unfold fontLookup
  split <;> simp [FontTable.patterns]

theorem fontLookup_of_absent (t : FontTable) {c : Byte} (hdigit : ¬ (0x30 ≤ c.toNat ∧ c.toNat ≤ 0x39))
    (hminus : c ≠ 0x2D#8) (hblank : c ≠ 0x20#8) : fontLookup t c = 0x00#8 := by
  have hminus' : c.toNat ≠ 0x2D := fun h => hminus (BitVec.eq_of_toNat_eq h)
  have hblank' : c.toNat ≠ 0x20 := fun h => hblank (BitVec.eq_of_toNat_eq h)
  unfold fontLookup
  split
  case h_13 => rfl
  all_goals omega

theorem fontLookup_point_clear {t : FontTable} (ht : t.admissible = true) (c : Byte) :
    (fontLookup t c).getLsbD 7 = false := by
  obtain ⟨-, hclear⟩ := t.admissible_iff.mp ht
  obtain hmem | hzero := fontLookup_mem t c
  · exact hclear _ hmem
  · rw [hzero]; rfl

/-- On a pattern without the point the overlay carries nothing, so it adds the point's bit. -/
theorem withPoint_eq_add {p : Byte} (hp : p.getLsbD 7 = false) : withPoint p = p + 0x80#8 := by
  have hdisjoint : p &&& 0x80#8 = 0#8 := (BitVec.and_twoPow p 7).trans (if_neg (ne_true_of_eq_false hp))
  exact (BitVec.add_eq_or_of_and_eq_zero p _ hdisjoint).symm

/-- The characters whose patterns D00 fixes: `'1'` to `'5'` and blank. -/
theorem fontMap_fixed {t : FontTable} (ht : t.admissible = true) :
    fontMap t [0x31, 0x32, 0x33, 0x34, 0x35, 0x20] = [0x06#8, 0x5B#8, 0x4F#8, 0x66#8, 0x6D#8, 0x00#8] := by
  obtain ⟨⟨h1, h2, h3, h4, h5, hblank⟩, -⟩ := t.admissible_iff.mp ht
  calc fontMap t [0x31, 0x32, 0x33, 0x34, 0x35, 0x20]
      = [t.d1, t.d2, t.d3, t.d4, t.d5, t.blank] := rfl
    _ = _ := by rw [h1, h2, h3, h4, h5, hblank]

/-! ### The table in force -/

@[simp] theorem emitNext_font (s : State) : (emitNext s).font = s.font := by
  cases h : s.seq with
  | idle => rw [emitNext_idle h]
  | running r k todo =>
    cases todo with
    | nil => rw [emitNext_running_nil h]
    | cons e todo => rw [emitNext_running_cons h]; rfl

theorem exec_font {i : Instr} {s t : State} (h : exec i s = .next t) : t.font = s.font := by
  obtain ⟨-, -, -, ⟨hfont, -⟩, -⟩ := exec_fields h
  exact hfont

/-- No step writes the table in force, the reset included (R145). -/
theorem step_font {s t : State} (h : step s = .next t) : t.font = s.font := by
  cases step_next h with
  | reset rest => exact hardReset_font _
  | event rest => exact emitNext_font _
  | ran _ _ _ _ _ _ _ answer => exact (exec_font answer :)
  | started _ _ _ _ _ _ _ answer => exact (exec_font answer :)

/-- Settles O46: a lookup answers a pattern of the table or blank, the constraint clears bit 7 of each, and each of the four
cases of a step keeps the table. -/
theorem fontTableValues : Obligations.FontTableValues :=
  ⟨rfl, by decide, rfl, fun t _ => fontLookup_of_absent t,
    fun _ ht => ⟨fontMap_fixed ht, fun c =>
      ⟨fontLookup_point_clear ht c, withPoint_eq_add (fontLookup_point_clear ht c)⟩⟩,
    fun _ _ => step_font⟩

end Sys2Proof.Machine

/-! The Display Controller's commands one by one (42_display_controller R155 to R162): what each writes, what it leaves alone
and what it emits. -/

namespace Sys2Proof.Machine

/-! ### The guard -/

/-- While Uninitialized every instruction but INIT leaves the state as it is. -/
theorem exec_uninitialized {i : Instr} {s : State} (hmode : s.mode = .uninitialized)
    (hinit : ∀ clk dio a, i ≠ .init clk dio a) : exec i s = .next s := by
  cases i with
  | init clk dio a => exact absurd rfl (hinit clk dio a)
  | tReserved _ | cReserved _ => rfl
  | _ => exact whenActive_uninitialized hmode _

/-- Settles O15: the guard of the command. -/
theorem uninitializedIgnoresAllButInit : Obligations.UninitializedIgnoresAllButInit :=
  fun _ _ _ => exec_uninitialized

/-- A command bundle decodes by its opcode, with its own operands. -/
theorem decode_cport_of_op {b : CBundle} {op : BitVec 4} (h : b.op = op) :
    decode (.cport b) = .instr (decodeC { b with op := op }) := by
  rw [← h]; rfl

/-- Events emitted after register writes are all that was emitted. -/
theorem WritesRegisters.emits_emitAll {s u : State} (hu : WritesRegisters s u) (es : List Event) :
    emits s (emitAll u es) es := by
  refine ⟨by rw [emitAll_trace, hu.trace], fun p => ?_⟩
  rw [emitAll_lvl, hu.lvl, levelRead_driveAll]

/-! ### INIT, SETBRI, SETPWR -/

/-- The state INIT leaves before its events (42_display R156, 10_state R36). -/
def initRegisters (s : State) (d : Driver) : State := { s with mode := .active d, power := true, gram := [] }

theorem writesRegisters_init (s : State) (d : Driver) : WritesRegisters s (initRegisters s d) :=
  ⟨rfl, rfl, rfl, rfl, rfl, rfl, rfl, fun _ => memory_nil_wf⟩

/-- The driver INIT leaves. -/
def initDriver (clk dio : PinId) (a : Word) : Driver := ⟨clk, dio, brightnessOperand a⟩

theorem exec_init (clk dio : PinId) (a : Word) (s : State) :
    exec (.init clk dio a) s = .next (emitAll (initRegisters s (initDriver clk dio a))
      (emission (.init clk dio a) s (initDriver clk dio a))) := rfl

theorem handshakeSeq_eq (hsWait : Bool) (d : Driver) :
    handshakeSeq hsWait d = [clkEvent d false] ++ (if hsWait then [Event.wait] else []) ++ [dioEvent d false] ++
      (if hsWait then [Event.wait] else []) := by
  simp [handshakeSeq]

/-- The display-control byte with power on (30_encoding R84). -/
theorem dispCtlByte_on (bri : BitVec 3) : 0x88#8 ||| bri.zeroExtend 8 = dispCtlByte true bri := rfl

/-- Settles O31: INIT reads nothing of the state before it. -/
theorem initReplacesTheDriver : Obligations.InitReplacesTheDriver := by
  refine ⟨fun b => decode_cport_of_op, fun s clk dio a => ⟨_, initDriver clk dio a, exec_init clk dio a s, rfl, rfl, rfl,
    clamp07_toNat a.toInt, rfl, memRead_nil, ⟨rfl, rfl, rfl, rfl, rfl⟩, ?_⟩⟩
  rw [emission, handshakeSeq_eq, dispCtlByte_on]
  exact (writesRegisters_init s _).emits_emitAll _

section Active
variable {s : State} {d : Driver}

theorem writesRegisters_setDriver (s : State) (d : Driver) : WritesRegisters s (setDriver s d) :=
  ⟨rfl, rfl, rfl, rfl, rfl, rfl, rfl, id⟩

theorem exec_setbri (hmode : s.mode = .active d) (a : Word) :
    exec (.setbri a) s = .next (emitAll (setDriver s (d.withBrightness a))
      (frameSeq d [0x40#8] ++ frameSeq d [dispCtlByte s.power (brightnessOperand a)])) :=
  whenActive_active hmode _

/-- The state SETPWR leaves before its events (42_display R158). -/
def setPower (s : State) (on : Bool) : State := { s with power := on }

theorem writesRegisters_setPower (s : State) (on : Bool) : WritesRegisters s (setPower s on) :=
  ⟨rfl, rfl, rfl, rfl, rfl, rfl, rfl, id⟩

theorem exec_setpwr (hmode : s.mode = .active d) (a : Word) :
    exec (.setpwr a) s = .next (emitAll (setPower s (onFlag a)) (frameSeq d [dispCtlByte (onFlag a) d.bright])) :=
  whenActive_active hmode _

end Active

/-- Settles O32: the one register written is the driver's brightness; that a second one writes the same is O40's. -/
theorem setBrightnessClampsAndReissues : Obligations.SetBrightnessClampsAndReissues := by
  refine ⟨fun b => decode_cport_of_op, fun s d a hmode => ⟨_, d.withBrightness a, exec_setbri hmode a, rfl,
    clamp07_toNat a.toInt, rfl, rfl, rfl, fun _ => rfl, ⟨rfl, rfl, rfl, rfl, rfl⟩,
    (writesRegisters_setDriver s _).emits_emitAll _, fun u hu => ?_⟩⟩
  obtain ⟨hmode', hpower, hgram, -⟩ := commandsAreIdempotentInState _ s _ u rfl (exec_setbri hmode a) hu
  exact ⟨hmode', hpower, hgram⟩

/-- Settles O33: the one register written is the power flag. -/
theorem setPowerReissuesDisplayControl : Obligations.SetPowerReissuesDisplayControl := by
  refine ⟨fun b => decode_cport_of_op, fun s d a hmode => ⟨_, exec_setpwr hmode a, bne_iff_ne, rfl, fun _ => rfl,
    ⟨rfl, rfl, rfl, rfl, rfl⟩, ?_⟩⟩
  rw [dispCtlByte_eq_fields]
  exact (writesRegisters_setPower s _).emits_emitAll _

/-! ### The memory writes: WRMEM, CLEAR, REFRESH -/

/-- What the one channel of every memory write keeps and sends, whatever the payload (42_display R159, R162). -/
theorem writeMemory_keeps_and_sends (s : State) (d : Driver) (pos : BitVec 4) (payload : List Byte) :
    (writeMemory s d pos payload).mode = s.mode ∧ (writeMemory s d pos payload).power = s.power ∧
      keepsControl s (writeMemory s d pos payload) ∧
      emits s (writeMemory s d pos payload)
        (frameSeq d [0x40#8] ++ frameSeq d (addrByte pos :: payload) ++ frameSeq d [dispByte s d]) :=
  ⟨rfl, rfl, ⟨rfl, rfl, rfl, rfl, rfl⟩, (writesRegisters_gram s pos.toNat payload).emits_emitAll _⟩

/-- A position outside the payload, or past the mirror, reads as before. -/
theorem memRead_mirrorStore_outside (m : Memory) {a p : Nat} {bs : List Byte}
    (hp : p < a ∨ a + bs.length ≤ p ∨ 16 ≤ p) : memRead (mirrorStore m a bs) p = memRead m p := by
  rw [memRead_mirrorStore]
  split
  next hin => rw [List.getElem?_eq_none (by omega), Option.getD_none]
  next => rfl

theorem memRead_mirrorStore_inside (m : Memory) {a k : Nat} {bs : List Byte} {b : Byte} (hk : bs[k]? = some b)
    (hlast : a + k < 16) : memRead (mirrorStore m a bs) (a + k) = b := by
  rw [memRead_mirrorStore, if_pos ⟨Nat.le_add_right a k, hlast⟩, Nat.add_sub_cancel_left, hk, Option.getD_some]

/-- Four bytes stored from position 0 are the four digits. -/
theorem digitsAre_of_gram {s t : State} {segs : List Byte} (hlength : segs.length = 4)
    (hgram : t.gram = mirrorStore s.gram 0 segs) : digitsAre s t segs := by
  refine ⟨hlength, fun k b hk => ?_, fun p hp => ?_⟩
  · obtain ⟨hlt, -⟩ := List.getElem?_eq_some_iff.mp hk
    simpa [hgram] using memRead_mirrorStore_inside s.gram (a := 0) hk (by omega)
  · rw [hgram, memRead_mirrorStore_outside s.gram (by omega)]

/-- An element masked to 8 bits is the element modulo 256 (20_memory R57). -/
theorem payloadBytes_eq (len : BitVec 5) (data : Vector Word 16) :
    payloadBytes len data = (data.toList.take (min len.toNat 16)).map fun x => BitVec.ofNat 8 x.toNat := rfl

section MemoryWrites
variable {s : State} {d : Driver}

theorem exec_wrmem (hmode : s.mode = .active d) {a : Word} {pos : BitVec 4} (hpos : startPosition a = some pos)
    (len : BitVec 5) (data : Vector Word 16) :
    exec (.wrmem a len data) s = .next (writeMemory s d pos (payloadBytes len data)) := by
  refine (whenActive_active hmode _).trans ?_
  rw [hpos]

theorem exec_wrmem_out_of_range (hmode : s.mode = .active d) {a : Word} (hout : ¬ (0 ≤ a.toInt ∧ a.toInt < 16))
    (len : BitVec 5) (data : Vector Word 16) : exec (.wrmem a len data) s = .next s := by
  refine (whenActive_active hmode _).trans ?_
  rw [startPosition, if_neg hout]

theorem exec_clear (hmode : s.mode = .active d) :
    exec .clear s = .next (writeMemory s d 0 [0x00#8, 0x00#8, 0x00#8, 0x00#8]) :=
  whenActive_active hmode _

theorem exec_refresh (hmode : s.mode = .active d) : exec .refresh s = .next (refreshDigits s d) :=
  whenActive_active hmode _

end MemoryWrites

/-- Settles O34: WRMEM is one memory write of its payload at its start position. -/
theorem writeMemoryStoresAndSends : Obligations.WriteMemoryStoresAndSends := by
  refine ⟨fun b => decode_cport_of_op, fun s d a len data hmode =>
    ⟨fun hout => exec_wrmem_out_of_range hmode hout len data, fun start hstart ha => ?_⟩⟩
  obtain ⟨pos, hpos, rfl⟩ := startPosition_of_lt ha hstart
  obtain ⟨hmode', hpower, hcontrol, hemits⟩ := writeMemory_keeps_and_sends s d pos (payloadBytes len data)
  refine ⟨_, exec_wrmem hmode hpos len data, hmode', hpower, hcontrol, fun k x hk hlast hx => ?_, fun p hp => ?_, ?_⟩
  · exact memRead_mirrorStore_inside s.gram (payloadBytes_getElem? hk hx) hlast
  · exact memRead_mirrorStore_outside s.gram (by rwa [payloadBytes_length])
  · rwa [addrByte_eq_ofNat, ← payloadBytes_eq]

/-- Settles O35: CLEAR is one memory write of four zeros at position 0. -/
theorem clearIsAWriteOfFourZeros : Obligations.ClearIsAWriteOfFourZeros := by
  refine ⟨fun b => decode_cport_of_op, fun s d hmode => ⟨?_, _, exec_clear hmode, ?_⟩⟩
  · have hpayload : payloadBytes 4 (Vector.replicate 16 0) = [0x00#8, 0x00#8, 0x00#8, 0x00#8] := rfl
    rw [exec_clear hmode, exec_wrmem hmode (pos := 0) rfl, hpayload]
  · obtain ⟨hmode', hpower, hcontrol, hemits⟩ := writeMemory_keeps_and_sends s d 0 [0x00#8, 0x00#8, 0x00#8, 0x00#8]
    exact ⟨hmode', hpower, hcontrol, digitsAre_of_gram rfl rfl, hemits⟩

theorem maskByte_zeroExtend (b : Byte) : maskByte (b.zeroExtend 32) = b := by
  rw [maskByte, ← BitVec.setWidth_eq_extractLsb' (by omega)]
  exact BitVec.setWidth_setWidth_of_le b (by omega)

/-- Lanes that hold bytes, zero-extended, are sent as those bytes. -/
theorem payloadBytes_of_lanes {len : BitVec 5} {data : Vector Word 16} {bs : List Byte}
    (hlength : bs.length = min len.toNat 16)
    (hlanes : ∀ (k : Nat) (b : Byte), bs[k]? = some b → data.toList[k]? = some (b.zeroExtend 32)) :
    payloadBytes len data = bs := by
  refine List.ext_getElem? fun k => ?_
  by_cases hk : k < bs.length
  · have hbyte := List.getElem?_eq_getElem hk
    rw [payloadBytes_getElem? (by omega) (hlanes k _ hbyte), maskByte_zeroExtend, hbyte]
  · rw [List.getElem?_eq_none (by rw [payloadBytes_length]; omega), List.getElem?_eq_none (by omega)]

/-- Settles O36: REFRESH is one memory write of the bytes it reads; that a second one emits the same is O40's. -/
theorem refreshResendsTheFirstFour : Obligations.RefreshResendsTheFirstFour := by
  refine ⟨fun b => decode_cport_of_op, fun s d hmode => ⟨fun data hdata => ?_, _, exec_refresh hmode, ?_⟩⟩
  · have hpayload : payloadBytes 4 data = digitCells s.gram := by
      refine payloadBytes_of_lanes rfl fun k b hk => ?_
      match k with
      | 0 | 1 | 2 | 3 => cases hk; exact hdata _ (by omega)
      | k + 4 => cases hk
    rw [exec_refresh hmode, exec_wrmem hmode (pos := 0) rfl, hpayload]
    rfl
  · obtain ⟨hmode', hpower, hcontrol, hemits⟩ := writeMemory_keeps_and_sends s d 0 (digitCells s.gram)
    refine ⟨hmode', hpower, hcontrol, memRead_refreshDigits s d, fun hwf => ?_, hemits, fun u hu => ?_⟩
    · exact memory_ext (mirrorStore_wf hwf _ _) hwf (memRead_refreshDigits s d)
    · obtain ⟨-, -, -, hnew⟩ := commandsAreIdempotentInState _ s _ u rfl (exec_refresh hmode) hu
      exact hnew

end Sys2Proof.Machine

/-! The Display Controller as a whole: the display-control frame that closes every command (42_display_controller R162), the
frame of every instruction (R164), and the state machine (R163). -/

namespace Sys2Proof.Machine

/-! ### The display-control frame -/

/-- A frame that is no display control, by its first byte (30_encoding R84). -/
def NoControl (bytes : List Byte) : Prop := ∀ b, bytes.head? = some b → b &&& 0xF0#8 ≠ 0x80#8

theorem noControl_dataCmd : NoControl [0x40#8] := by
  rintro _ ⟨⟩
  decide

theorem noControl_addrWrite (pos : BitVec 4) (payload : List Byte) : NoControl (addrByte pos :: payload) := by
  rintro _ ⟨⟩
  revert pos
  decide

/-- What a command that emits does: after INIT's handshake it sends frames, none of them a display control, and then
the display control with the power and the brightness it leaves. -/
def EndsInControl (i : Instr) (s t : State) : Prop :=
  ∃ (d : Driver) (handshake : List Event) (fs : List (List Byte)), t.mode = .active d ∧
    (handshake = [] ∨ ∃ clk dio a, i = .init clk dio a ∧ handshake = handshakeSeq Config.hsWait d) ∧
    (∀ f ∈ fs, NoControl f) ∧
    emits s t (handshake ++ fs.flatMap (frameSeq d) ++ frameSeq d [dispByte t d])

theorem writeMemory_endsInControl {s : State} {d : Driver} (hmode : s.mode = .active d) (i : Instr) (gram : Memory)
    (pos : BitVec 4) (payload : List Byte) : EndsInControl i s (writeMemory { s with gram := gram } d pos payload) := by
  obtain ⟨hmode', -, -, hemits⟩ := writeMemory_keeps_and_sends { s with gram := gram } d pos payload
  refine ⟨d, [], [[0x40#8], addrByte pos :: payload], hmode'.trans hmode, .inl rfl,
    List.forall_mem_cons.mpr ⟨noControl_dataCmd, List.forall_mem_singleton.mpr (noControl_addrWrite pos payload)⟩, ?_⟩
  rw [List.nil_append, List.flatMap_cons, List.flatMap_singleton]
  exact hemits

theorem exec_init_endsInControl {clk dio : PinId} {a : Word} {s t : State} (h : exec (.init clk dio a) s = .next t) :
    EndsInControl (.init clk dio a) s t := by
  cases h
  exact ⟨initDriver clk dio a, _, [[0x40#8]], rfl, .inr ⟨clk, dio, a, rfl, rfl⟩,
    List.forall_mem_singleton.mpr noControl_dataCmd, (writesRegisters_init s _).emits_emitAll _⟩

/-- A command given in an Active state does nothing or ends in the display control. -/
theorem exec_endsInControl {i : Instr} {s t : State} {d : Driver} (hport : i.port = .cport) (hmode : s.mode = .active d)
    (h : exec i s = .next t) : t = s ∨ EndsInControl i s t := by
  cases i with
  | init clk dio a => exact .inr (exec_init_endsInControl h)
  | setbri a =>
    cases (exec_setbri hmode a).symm.trans h
    refine .inr ⟨d.withBrightness a, [], [[0x40#8]], rfl, .inl rfl, List.forall_mem_singleton.mpr noControl_dataCmd, ?_⟩
    exact (writesRegisters_setDriver s _).emits_emitAll _
  | setpwr a =>
    cases (exec_setpwr hmode a).symm.trans h
    exact .inr ⟨d, [], [], hmode, .inl rfl, nofun, (writesRegisters_setPower s _).emits_emitAll _⟩
  | wrmem a len data =>
    by_cases hrange : 0 ≤ a.toInt ∧ a.toInt < 16
    · cases (exec_wrmem hmode (if_pos hrange) len data).symm.trans h
      exact .inr (writeMemory_endsInControl hmode _ s.gram _ _)
    · cases (exec_wrmem_out_of_range hmode hrange len data).symm.trans h
      exact .inl rfl
  | clear | refresh | showint _ | showflt1 _ =>
    obtain ⟨gram, pos, payload, rfl, -, -⟩ := exec_addresses hmode h ⟨rfl, rfl⟩
    exact .inr (writeMemory_endsInControl hmode _ gram pos payload)
  | cReserved _ => cases h; exact .inl rfl
  | _ => cases hport

/-- Settles O37: INIT leaves an Active state whatever the one before; every other command needs one to emit. -/
theorem displayControlCarriesTheValuesInForce : Obligations.DisplayControlCarriesTheValuesInForce := by
  intro i s t hport h htrace
  have hends : EndsInControl i s t := by
    by_cases hinit : ∃ clk dio a, i = .init clk dio a
    · obtain ⟨clk, dio, a, rfl⟩ := hinit
      exact exec_init_endsInControl h
    · cases hmode : s.mode with
      | uninitialized =>
        cases (exec_uninitialized hmode fun clk dio a hi => hinit ⟨clk, dio, a, hi⟩).symm.trans h
        exact absurd rfl htrace
      | active d =>
        obtain rfl | hends := exec_endsInControl hport hmode h
        · exact absurd rfl htrace
        · exact hends
  obtain ⟨d, handshake, fs, hmode, hhandshake, hfs, hemits⟩ := hends
  refine ⟨d, handshake, fs, hmode, hhandshake, hfs, ?_⟩
  rwa [dispCtlByte_eq_fields]

/-! ### What each instruction leaves alone -/

theorem padleft4_length (segs : List Byte) : (padleft4 segs).length = max 4 segs.length := by
  rw [padleft4, List.length_append, List.length_replicate]
  omega

theorem intSegments_length (t : FontTable) (n : Int) : (intSegments t n).length = 4 := by
  simp [intSegments, padleft4_length, fontMap, first4]

theorem fltSegments_length (t : FontTable) (n10 : Int) : (fltSegments t n10).length = 4 := by
  rw [fltSegments, last4, List.length_drop, padleft4_length]
  omega

/-- A renderer writes no register and no position past its four segments (43_renderers R197). -/
theorem showSegments_frame (s : State) (d : Driver) {segs : List Byte} (hlength : segs.length = 4) :
    (showSegments s d segs).mode = s.mode ∧ (showSegments s d segs).power = s.power ∧
      ∀ p, 4 ≤ p → memRead (showSegments s d segs).gram p = memRead s.gram p := by
  refine ⟨rfl, rfl, fun p hp => ?_⟩
  rw [showSegments, memRead_refreshDigits]
  exact memRead_mirrorStore_outside s.gram (by omega)

/-- Settles O38: instruction by instruction, from what each writes. -/
theorem commandsLeaveTheRestAlone : Obligations.CommandsLeaveTheRestAlone := by
  intro i s t d hmode h
  obtain ⟨-, -, -, hcontrol, -⟩ := exec_fields h
  refine ⟨hcontrol, ?_⟩
  cases i with
  | init clk dio a => cases h; exact ⟨⟨_, rfl⟩, rfl, memRead_nil⟩
  | setbri a => cases (exec_setbri hmode a).symm.trans h; exact ⟨⟨_, rfl⟩, rfl, fun _ => rfl⟩
  | setpwr a => cases (exec_setpwr hmode a).symm.trans h; exact ⟨rfl, fun _ => rfl⟩
  | wrmem a len data =>
    by_cases hrange : 0 ≤ a.toInt ∧ a.toInt < 16
    · obtain ⟨pos, hpos, hnat⟩ := startPosition_of_lt (Int.toNat_of_nonneg hrange.1).symm (by omega)
      cases (exec_wrmem hmode hpos len data).symm.trans h
      refine ⟨rfl, rfl, fun p hp => memRead_mirrorStore_outside s.gram ?_⟩
      rw [payloadBytes_length]
      omega
    · cases (exec_wrmem_out_of_range hmode hrange len data).symm.trans h
      exact ⟨rfl, rfl, fun _ _ => rfl⟩
  | clear =>
    cases (exec_clear hmode).symm.trans h
    obtain ⟨-, hdigits, habove⟩ := digitsAre_of_gram rfl (writeMemory_gram s d 0 (List.replicate 4 0x00#8))
    exact ⟨rfl, rfl, fun p hp => hdigits p _ (List.getElem?_replicate_of_lt hp), habove⟩
  | refresh => cases (exec_refresh hmode).symm.trans h; exact ⟨rfl, rfl, memRead_refreshDigits s d⟩
  | showint a =>
    cases (whenActive_active hmode _).symm.trans h
    exact showSegments_frame s d (intSegments_length s.font a.toInt)
  | showflt1 a =>
    cases (whenActive_active hmode _).symm.trans h
    exact showSegments_frame s d (fltSegments_length s.font a.toInt)
  | cReserved _ => cases h; exact keepsRegisters_emitAll s []
  | _ =>
    obtain ⟨hkeeps, -⟩ := transportOnlyEmits _ s t Port.noConfusion h
    exact hkeeps

/-! ### The pin binding -/

/-- The pins bound, none while Uninitialized (10_state R22). -/
def Mode.pins (m : Mode) : Option (PinId × PinId) := m.driver.map fun d => (d.pinclk, d.pindio)

/-- Only INIT binds pins (42_display R163). -/
theorem exec_pins {i : Instr} {s t : State} (hinit : ∀ clk dio a, i ≠ .init clk dio a) (h : exec i s = .next t) :
    t.mode.pins = s.mode.pins := by
  cases hmode : s.mode with
  | uninitialized => cases (exec_uninitialized hmode hinit).symm.trans h; rw [hmode]
  | active d =>
    obtain ⟨-, hframe⟩ := commandsLeaveTheRestAlone i s t d hmode h
    cases i with
    | init clk dio a => exact absurd rfl (hinit clk dio a)
    | setbri a =>
      obtain ⟨⟨b, hmode'⟩, -⟩ := hframe
      rw [hmode']; rfl
    | _ =>
      obtain ⟨hmode', -⟩ := hframe
      rw [hmode', hmode]

theorem emitNext_mode (s : State) : (emitNext s).mode = s.mode := by
  cases h : s.seq with
  | idle => rw [emitNext_idle h]
  | running r k todo =>
    cases todo with
    | nil => rw [emitNext_running_nil h]
    | cons e todo => rw [emitNext_running_cons h]; rfl

theorem port_of_decode {r : Request} {i : Instr} (h : decode r = .instr i) : i.port = r.opcodeBits.1 := by
  cases r with
  | cport b =>
    cases h
    obtain ⟨hport, -⟩ := matching_of_opcodeBits (opcodeBits_encode_decodeC b)
    exact hport
  | tport b =>
    cases h
    obtain ⟨hport, -⟩ := matching_of_opcodeBits (opcodeBits_encode_decodeT b)
    exact hport
  | wire b =>
    rw [decode, decodeWire] at h
    split_ifs at h <;> cases h <;> rfl

/-- Only a command bundle with opcode 0000 decodes to INIT, which takes its pins. -/
theorem decode_eq_init {r : Request} {clk dio : PinId} {a : Word} (h : decode r = .instr (.init clk dio a)) :
    ∃ b : CBundle, r = .cport b ∧ b.op = 0b0000#4 ∧ b.clk = clk ∧ b.dio = dio := by
  have hport := port_of_decode h
  cases r with
  | cport b =>
    have hbits := opcodeBits_encode_decodeC b
    rw [Decoded.instr.inj h] at hbits
    have hop : b.op = 0b0000#4 := BitVec.eq_of_toNat_eq (congrArg Prod.snd hbits).symm
    cases (decode_cport_of_op hop).symm.trans h
    exact ⟨b, rfl, hop, rfl, rfl⟩
  | tport b | wire b => cases hport

/-- A request run or started binds pins only where it is INIT. -/
theorem exec_decoded_pins {r : Request} {i : Instr} {s t : State} (hd : decode r = .instr i) (h : exec i s = .next t) :
    t.mode.pins = s.mode.pins ∨
      ∃ b : CBundle, r = .cport b ∧ b.op = 0b0000#4 ∧ t.mode.pins = some (b.clk, b.dio) := by
  by_cases hinit : ∃ clk dio a, i = .init clk dio a
  · obtain ⟨clk, dio, a, rfl⟩ := hinit
    obtain ⟨b, hr, hop, rfl, rfl⟩ := decode_eq_init hd
    cases h
    exact .inr ⟨b, hr, hop, rfl⟩
  · exact .inl (exec_pins (fun clk dio a hi => hinit ⟨clk, dio, a, hi⟩) h)

/-- What a step can do to the binding: keep it, drop it at a reset, or take INIT's. -/
theorem step_pins {s t : State} (h : step s = .next t) :
    t.mode.pins = s.mode.pins ∨ (t.mode = .uninitialized ∧ ∃ rest, s.inbox = .reset :: rest) ∨
      ∃ (b : CBundle) (rest : List Input), b.op = 0b0000#4 ∧ t.mode.pins = some (b.clk, b.dio) ∧
        (s.inbox = .command (.cport b) :: rest ∨ s.inbox = .start (.cport b) :: rest) := by
  cases step_next h with
  | reset rest input => exact .inr (.inl ⟨rfl, rest, input⟩)
  | event rest => exact .inl (congrArg Mode.pins (emitNext_mode _))
  | ran rest r i _ _ input decoded answer =>
    obtain hpins | ⟨b, rfl, hop, hpins⟩ := exec_decoded_pins decoded answer
    · exact .inl hpins
    · exact .inr (.inr ⟨b, rest, hop, hpins, .inl input⟩)
  | started rest r i _ _ input decoded answer =>
    obtain hpins | ⟨b, rfl, hop, hpins⟩ := exec_decoded_pins decoded answer
    · exact .inl hpins
    · exact .inr (.inr ⟨b, rest, hop, hpins, .inr input⟩)

/-- Settles O39: the four pairs of modes, each read off the binding a step leaves. -/
theorem onlyInitBindsAndOnlyResetUnbinds : Obligations.OnlyInitBindsAndOnlyResetUnbinds := by
  intro s t h
  cases hmode : s.mode with
  | uninitialized =>
    cases hmode' : t.mode with
    | uninitialized => trivial
    | active d' =>
      obtain hpins | ⟨hun, -⟩ | ⟨b, rest, hop, -, hin⟩ := step_pins h
      · rw [hmode, hmode'] at hpins; cases hpins
      · cases hmode'.symm.trans hun
      · exact ⟨b, rest, hop, hin⟩
  | active d =>
    cases hmode' : t.mode with
    | uninitialized =>
      obtain hpins | ⟨-, hreset⟩ | ⟨b, -, -, hpins, -⟩ := step_pins h
      · rw [hmode, hmode'] at hpins; cases hpins
      · exact hreset
      · rw [hmode'] at hpins; cases hpins
    | active d' =>
      obtain hpins | ⟨hun, -⟩ | ⟨b, rest, hop, hpins, hin⟩ := step_pins h
      · rw [hmode, hmode'] at hpins
        obtain ⟨hclk, hdio⟩ := Prod.mk.inj (Option.some.inj hpins)
        exact .inl ⟨hclk, hdio⟩
      · cases hmode'.symm.trans hun
      · rw [hmode'] at hpins
        obtain ⟨hclk, hdio⟩ := Prod.mk.inj (Option.some.inj hpins)
        exact .inr ⟨b, rest, hop, hclk, hdio, hin⟩

end Sys2Proof.Machine

/-! The decimal string (43_renderers R185, R191): the model's digits are Mathlib's `Nat.digits`, most significant first, with
a single zero for the number 0, where `Nat.digits` has none. -/

namespace Sys2Proof.Machine

theorem decimalDigits_eq_digits {fuel n : Nat} (hfuel : n ≤ fuel) (hn : n ≠ 0) :
    decimalDigits fuel n = (Nat.digits 10 n).reverse := by
  induction fuel generalizing n with
  | zero => exact absurd (Nat.le_zero.mp hfuel) hn
  | succ fuel ih =>
    rw [decimalDigits]
    split
    next hlt => rw [Nat.digits_of_lt 10 n hn hlt, List.reverse_singleton]
    next hge =>
      rw [ih (by omega) (by omega), Nat.digits_eq_cons_digits_div (by omega) hn, List.reverse_cons]

/-- The digits of a number, the fuel that `decstr` gives them included. -/
theorem decimalDigits_self (n : Nat) : decimalDigits n n = if n = 0 then [0] else (Nat.digits 10 n).reverse := by
  split
  next hzero => subst hzero; rfl
  next hn => exact decimalDigits_eq_digits le_rfl hn

theorem decimalDigits_lt_ten {n x : Nat} (hx : x ∈ decimalDigits n n) : x < 10 := by
  rw [decimalDigits_self] at hx
  split at hx
  next => rw [List.mem_singleton.mp hx]; omega
  next => exact Nat.digits_lt_base (by omega) (List.mem_reverse.mp hx)

theorem decimalDigits_value (n : Nat) : (decimalDigits n n).foldl (fun acc x => 10 * acc + x) 0 = n := by
  rw [decimalDigits_self]
  split
  next hzero => exact hzero.symm
  next =>
    rw [List.foldl_reverse]
    simpa [Nat.ofDigits_eq_foldr, Nat.add_comm] using Nat.ofDigits_digits 10 n

theorem decimalDigits_ne_nil (n : Nat) : decimalDigits n n ≠ [] := by
  rw [decimalDigits_self]
  split
  next => exact List.cons_ne_nil 0 []
  next hn => exact fun h => Nat.digits_ne_nil_iff_ne_zero.mpr hn (List.reverse_eq_nil_iff.mp h)

/-- Only the number 0 has a leading zero. -/
theorem decimalDigits_of_head_zero {n : Nat} (h : (decimalDigits n n).head? = some 0) : decimalDigits n n = [0] := by
  rw [decimalDigits_self] at h ⊢
  split at h
  next hzero => exact if_pos hzero
  next hn =>
    rw [List.head?_reverse, List.getLast?_eq_some_getLast (Nat.digits_ne_nil_iff_ne_zero.mpr hn)] at h
    exact absurd (Option.some.inj h) (Nat.getLast_digit_ne_zero 10 hn)

theorem decimalDigits_length_le_iff (n : Nat) {k : Nat} (hk : 0 < k) :
    (decimalDigits n n).length ≤ k ↔ n < 10 ^ k := by
  rw [decimalDigits_self]
  split
  next hzero => simpa [hzero] using Nat.succ_le_iff.mpr hk
  next => rw [List.length_reverse, Nat.digits_length_le_iff (by omega)]

/-! ### The sign -/

/-- The sign character of a number, none if it is not negative (R191; the spec's policy D16). -/
def signChars (n : Int) : List Char8 := if n < 0 then [minusCode] else []

theorem signChars_of_neg {n : Int} (hn : n < 0) : signChars n = [minusCode] := if_pos hn

theorem signChars_of_nonneg {n : Int} (hn : 0 ≤ n) : signChars n = [] := if_neg (by omega)

theorem decstr_natCast (n : Nat) : decstr n = (decimalDigits n n).map digitCode := by
  simp [decstr]

theorem decstr_eq_signChars_append (n : Int) : decstr n = signChars n ++ decstr (n.natAbs : Int) := by
  rw [decstr_natCast]; rfl

theorem decstr_of_neg {n : Int} (hn : n < 0) : decstr n = minusCode :: decstr (-n) := by
  have hmagnitude : (n.natAbs : Int) = -n := by omega
  rw [decstr_eq_signChars_append, signChars_of_neg hn, List.singleton_append, hmagnitude]

theorem decstr_ne_nil (n : Int) : decstr n ≠ [] := by
  rw [decstr_eq_signChars_append, decstr_natCast]
  simp [decimalDigits_ne_nil]

/-- How many characters a magnitude takes behind the sign of `n`: the minus sign takes the place of a digit. -/
theorem signed_length_le_iff (n : Int) (magnitude : Nat) {k : Nat} (hk : 1 < k) :
    (signChars n ++ decstr magnitude).length ≤ k ↔ magnitude < 10 ^ (if n < 0 then k - 1 else k) := by
  rw [decstr_natCast]
  split
  next hn =>
    rw [signChars_of_neg hn, ← decimalDigits_length_le_iff magnitude (by omega), List.length_append, List.length_map,
      List.length_singleton]
    omega
  next hn =>
    rw [signChars_of_nonneg (by omega), List.nil_append, List.length_map,
      decimalDigits_length_le_iff magnitude (by omega)]

theorem decstr_length_le_iff (n : Int) {k : Nat} (hk : 1 < k) :
    (decstr n).length ≤ k ↔ n.natAbs < 10 ^ (if n < 0 then k - 1 else k) := by
  rw [decstr_eq_signChars_append, signed_length_le_iff n n.natAbs hk]

/-- Settles O47: the digits are those of the magnitude, and a 32-bit magnitude is below `10 ^ 10`. -/
theorem decimalStringsAreDecimal : Obligations.DecimalStringsAreDecimal := by
  refine ⟨fun n => ⟨decimalDigits n.natAbs n.natAbs, rfl, fun _ => decimalDigits_lt_ten, decimalDigits_value _,
    decimalDigits_ne_nil _, decimalDigits_of_head_zero⟩, fun _ => decstr_of_neg, fun a => ⟨?_, ?_⟩⟩
  · exact List.length_pos_iff.mpr (decstr_ne_nil _)
  · have hlow := a.le_toInt
    have hhigh := a.toInt_lt
    rw [decstr_length_le_iff _ (by omega)]
    split <;> omega

end Sys2Proof.Machine

/-! The segments of the renderers (43_renderers R188 to R196): how long SHOWFLT1's list is, what the four positions hold of
it, and when the sign is among them. -/

namespace Sys2Proof.Machine

/-! ### The first and the last four of a list (R190) -/

theorem first4_eq_self_iff {α : Type} (x : List α) : first4 x = x ↔ x.length ≤ 4 := List.take_eq_self_iff x

theorem last4_eq_self_iff {α : Type} (x : List α) : last4 x = x ↔ x.length ≤ 4 := by
  constructor
  · intro h
    have hlength : x.length - (x.length - 4) = x.length := by rw [← List.length_drop]; exact congrArg List.length h
    omega
  · intro h
    rw [last4, Nat.sub_eq_zero_of_le h, List.drop_zero]

/-- An entry in front of four or more is not among the last four. -/
theorem last4_cons {α : Type} (a : α) {x : List α} (hx : 4 ≤ x.length) : last4 (a :: x) = last4 x := by
  rw [last4, List.length_cons, Nat.sub_add_comm hx, List.drop_succ_cons, last4]

/-- The last four of a list with two known entries at the end. -/
theorem last4_append_pair {α : Type} (front : List α) (a b : α) :
    last4 (front ++ [a, b]) = front.drop (front.length - 2) ++ [a, b] := by
  have hcount : (front ++ [a, b]).length - 4 = front.length - 2 := by simp
  rw [last4, hcount, List.drop_append_of_le_length (Nat.sub_le _ _)]

theorem padleft4_of_four_le {x : List Byte} (hx : 4 ≤ x.length) : padleft4 x = x := by
  rw [padleft4, Nat.sub_eq_zero_of_le hx, List.replicate_zero, List.nil_append]

/-! ### The point (R189 step 4, 41_font R144) -/

theorem pointOnLast_append_singleton (front : List Byte) (last : Byte) :
    pointOnLast (front ++ [last]) = front ++ [withPoint last] := by
  induction front with
  | nil => rfl
  | cons p front ih =>
    cases front with
    | nil => rfl
    | cons q front => exact congrArg (p :: ·) ih

/-- The point is on the last segment, so a segment in front of others stays as it is. -/
theorem pointOnLast_cons (p : Byte) {segs : List Byte} (hsegs : segs ≠ []) :
    pointOnLast (p :: segs) = p :: pointOnLast segs := by
  cases segs with
  | nil => exact absurd rfl hsegs
  | cons q rest => rfl

theorem withPoint_point (p : Byte) : (withPoint p).getLsbD 7 = true := by
  simp [withPoint]

/-- A list of segments with no point among them. -/
def PointClear (segs : List Byte) : Prop := ∀ p ∈ segs, p.getLsbD 7 = false

theorem pointClear_fontMap {t : FontTable} (ht : t.admissible = true) (chars : List Char8) :
    PointClear (fontMap t chars) := by
  intro p hp
  obtain ⟨c, -, rfl⟩ := List.mem_map.mp hp
  exact fontLookup_point_clear ht c

/-- The blank has no point. -/
theorem PointClear.blanks_append {segs : List Byte} (h : PointClear segs) (k : Nat) :
    PointClear (List.replicate k 0x00#8 ++ segs) := by
  intro p hp
  obtain hblank | hseg := List.mem_append.mp hp
  · rw [List.eq_of_mem_replicate hblank]; rfl
  · exact h p hseg

/-! ### SHOWFLT1's list of segments -/

theorem tenthsString_ne_nil (n10 : Int) : tenthsString n10 ≠ [] := by
  simp [tenthsString, decstr_ne_nil]

/-- The segments of SHOWFLT1: the integer part with the point on its last character, then the fraction digit. The integer
part is never empty (R196), so the placeholder of R189 step 4 is not used. -/
theorem tenthsSegments_eq (t : FontTable) (n10 : Int) : ∃ whole last,
    fontMap t (tenthsString n10) = whole ++ [last] ∧
      tenthsSegments t n10 = whole ++ [withPoint last, fontLookup t (digitCode (n10.tmod 10).natAbs)] := by
  have hne : fontMap t (tenthsString n10) ≠ [] := by simpa [fontMap] using tenthsString_ne_nil n10
  obtain hnil | ⟨whole, last, hwhole⟩ := List.eq_nil_or_concat' (fontMap t (tenthsString n10))
  · exact absurd hnil hne
  · refine ⟨whole, last, hwhole, ?_⟩
    rw [tenthsSegments, hwhole, pointOnLast_append_singleton, List.append_assoc]
    rfl

theorem tenthsSegments_length (t : FontTable) (n10 : Int) :
    (tenthsSegments t n10).length = (tenthsString n10).length + 1 := by
  obtain ⟨whole, last, hwhole, hsegs⟩ := tenthsSegments_eq t n10
  have hlength := congrArg List.length hwhole
  rw [fontMap, List.length_map, List.length_append, List.length_singleton] at hlength
  rw [hsegs, hlength, List.length_append]
  rfl

/-- SHOWFLT1's list has at most four segments exactly from -999 to 9999 tenths (R195). -/
theorem tenthsSegments_length_le_four_iff (t : FontTable) (n10 : Int) :
    (tenthsSegments t n10).length ≤ 4 ↔ -999 ≤ n10 ∧ n10 ≤ 9999 := by
  have hquotient : (n10.tdiv 10).natAbs = n10.natAbs / 10 := Int.natAbs_tdiv n10 10
  have hwhole : (tenthsString n10).length ≤ 3 ↔ (n10.tdiv 10).natAbs < 10 ^ (if n10 < 0 then 2 else 3) :=
    signed_length_le_iff n10 _ (by omega)
  rw [tenthsSegments_length, Nat.add_le_add_iff_right, hwhole, hquotient]
  split <;> omega

/-- A negative number's segments are the minus sign and the segments of its magnitude. -/
theorem tenthsSegments_of_neg (t : FontTable) {n10 : Int} (hn : n10 < 0) :
    tenthsSegments t n10 = fontLookup t minusCode :: tenthsSegments t (-n10) := by
  have hstring : tenthsString n10 = minusCode :: tenthsString (-n10) := by
    simp [tenthsString, hn, hn.le]
  have hmap : fontMap t (tenthsString n10) = fontLookup t minusCode :: fontMap t (tenthsString (-n10)) := by
    rw [hstring]; rfl
  have hrest : fontMap t (tenthsString (-n10)) ≠ [] := by simpa [fontMap] using tenthsString_ne_nil (-n10)
  rw [tenthsSegments, hmap, pointOnLast_cons _ hrest, List.cons_append, tenthsSegments, Int.neg_tmod, Int.natAbs_neg]

/-- Two known segments at the end are the third and the fourth of the four; the first two are segments in front, or blank. -/
theorem last4_padleft4_append_pair {front : List Byte} (hfront : PointClear front) (a b : Byte) :
    ∃ p q, last4 (padleft4 (front ++ [a, b])) = [p, q, a, b] ∧ PointClear [p, q] := by
  have hpadded : PointClear (List.replicate (2 - front.length) 0x00#8 ++ front) := hfront.blanks_append _
  have hlength : 2 ≤ (List.replicate (2 - front.length) 0x00#8 ++ front).length := by simp; omega
  have hsplit : padleft4 (front ++ [a, b]) = (List.replicate (2 - front.length) 0x00#8 ++ front) ++ [a, b] := by
    simp [padleft4]
  generalize List.replicate (2 - front.length) 0x00#8 ++ front = padded at hpadded hlength hsplit
  obtain ⟨p, q, hpq⟩ : ∃ p q, padded.drop (padded.length - 2) = [p, q] :=
    List.length_eq_two.mp (by rw [List.length_drop]; omega)
  refine ⟨p, q, ?_, fun x hx => hpadded x (List.mem_of_mem_drop (hpq ▸ hx))⟩
  rw [hsplit, last4_append_pair, hpq]
  rfl

/-- SHOWFLT1's third segment is the one with the point. -/
theorem fltSegments_point {t : FontTable} (ht : t.admissible = true) (n10 : Int) : ∃ p q last fraction,
    fltSegments t n10 = [p, q, withPoint last, fraction] ∧ PointClear [p, q, fraction] := by
  obtain ⟨whole, last, hwhole, hsegs⟩ := tenthsSegments_eq t n10
  have hclear : PointClear whole := fun p hp =>
    pointClear_fontMap ht (tenthsString n10) p (hwhole ▸ List.mem_append_left _ hp)
  obtain ⟨p, q, hfour, hpq⟩ := last4_padleft4_append_pair hclear (withPoint last)
    (fontLookup t (digitCode (n10.tmod 10).natAbs))
  refine ⟨p, q, last, _, by rw [fltSegments, hsegs, hfour], ?_⟩
  exact List.forall_mem_append.mpr ⟨hpq, List.forall_mem_singleton.mpr (fontLookup_point_clear ht _)⟩

/-! ### What is shown whole, and the sign (R191, R195) -/

theorem padleft4_length_le_four_iff (segs : List Byte) : (padleft4 segs).length ≤ 4 ↔ segs.length ≤ 4 := by
  rw [padleft4_length]
  omega

/-- Settles O51: four of a list are all of it exactly when its length is at most four. -/
theorem shownWholeExactlyInRange : Obligations.ShownWholeExactlyInRange := by
  refine ⟨fun n => ?_, fun t n10 => ?_⟩
  · rw [first4_eq_self_iff, decstr_length_le_iff n (by omega)]
    split <;> omega
  · rw [last4_eq_self_iff, padleft4_length_le_four_iff, tenthsSegments_length_le_four_iff]

theorem first4_decstr_of_neg {n : Int} (hn : n < 0) : (first4 (decstr n)).head? = some minusCode := by
  rw [decstr_of_neg hn, first4, List.take_succ_cons, List.head?_cons]

/-- Down to -999 tenths nothing is cut off, so the sign is there behind the blanks. -/
theorem fltSegments_sign_shown (t : FontTable) {n10 : Int} (hlow : -999 ≤ n10) (hn : n10 < 0) : ∃ k rest,
    fltSegments t n10 = List.replicate k 0x00#8 ++ fontLookup t minusCode :: rest ∧ k + rest.length = 3 := by
  have hlength : (tenthsSegments t n10).length ≤ 4 := (tenthsSegments_length_le_four_iff t n10).mpr ⟨hlow, by omega⟩
  refine ⟨4 - (tenthsSegments t n10).length, tenthsSegments t (-n10), ?_, ?_⟩
  · rw [fltSegments, (last4_eq_self_iff _).mpr ((padleft4_length_le_four_iff _).mpr hlength), padleft4,
      ← tenthsSegments_of_neg t hn]
  · rw [tenthsSegments_of_neg t hn, List.length_cons] at hlength ⊢
    omega

/-- From -1000 tenths down the magnitude alone fills the four positions. -/
theorem fltSegments_sign_dropped (t : FontTable) {n10 : Int} (hn : n10 ≤ -1000) :
    fltSegments t n10 = fltSegments t (-n10) := by
  have hsigned : ¬ (tenthsSegments t n10).length ≤ 4 := by
    rw [tenthsSegments_length_le_four_iff]
    omega
  rw [tenthsSegments_of_neg t (by omega), List.length_cons] at hsigned
  rw [fltSegments, tenthsSegments_of_neg t (by omega), padleft4_of_four_le (by rw [List.length_cons]; omega),
    last4_cons _ (by omega), fltSegments, padleft4_of_four_le (by omega)]

/-- Settles O52: the sign is the first character of the string, and the first segment of SHOWFLT1's list. -/
theorem signShownOrDropped : Obligations.SignShownOrDropped :=
  ⟨fun _ => first4_decstr_of_neg, fun t _ => fltSegments_sign_shown t, fun t _ => fltSegments_sign_dropped t⟩

/-! ### The renderers (R188, R189, R197) -/

section Renderers
variable {s : State} {d : Driver}

theorem exec_showint (hmode : s.mode = .active d) (a : Word) :
    exec (.showint a) s = .next (showSegments s d (intSegments s.font a.toInt)) :=
  whenActive_active hmode _

theorem exec_showflt1 (hmode : s.mode = .active d) (a : Word) :
    exec (.showflt1 a) s = .next (showSegments s d (fltSegments s.font a.toInt)) :=
  whenActive_active hmode _

end Renderers

/-- Four segments stored and then refreshed stand at positions 0 to 3. -/
theorem digitsAre_showSegments (s : State) (d : Driver) {segs : List Byte} (hlength : segs.length = 4) :
    digitsAre s (showSegments s d segs) segs := by
  have hrefresh (p : Nat) : memRead (showSegments s d segs).gram p = memRead (mirrorStore s.gram 0 segs) p :=
    memRead_refreshDigits { s with gram := mirrorStore s.gram 0 segs } d p
  obtain ⟨-, hdigits, habove⟩ :=
    digitsAre_of_gram (s := s) (t := { s with gram := mirrorStore s.gram 0 segs }) hlength rfl
  exact ⟨hlength, fun k b hk => (hrefresh k).trans (hdigits k b hk), fun p hp => (hrefresh p).trans (habove p hp)⟩

/-- The refresh of a renderer sends the four segments it stored. -/
theorem digitCells_mirrorStore (m : Memory) {segs : List Byte} (hlength : segs.length = 4) :
    digitCells (mirrorStore m 0 segs) = segs := by
  match segs, hlength with
  | [p, q, r, w], _ => simp [digitCells, memRead_mirrorStore]

theorem showSegments_eq_writeMemory (s : State) (d : Driver) {segs : List Byte} (hlength : segs.length = 4) :
    showSegments s d segs = writeMemory { s with gram := mirrorStore s.gram 0 segs } d 0 segs :=
  congrArg (writeMemory _ d 0) (digitCells_mirrorStore s.gram hlength)

/-- What a renderer leaves and sends, whatever its four segments. -/
theorem showSegments_keeps_and_sends (s : State) (d : Driver) {segs : List Byte} (hlength : segs.length = 4) :
    digitsAre s (showSegments s d segs) segs ∧ (showSegments s d segs).mode = s.mode ∧
      (showSegments s d segs).power = s.power ∧ keepsControl s (showSegments s d segs) ∧
      emits s (showSegments s d segs)
        (frameSeq d [0x40#8] ++ frameSeq d (0xC0#8 :: segs) ++ frameSeq d [dispByte s d]) := by
  have hdigits := digitsAre_showSegments s d hlength
  rw [showSegments_eq_writeMemory s d hlength] at hdigits ⊢
  exact ⟨hdigits, writeMemory_keeps_and_sends { s with gram := mirrorStore s.gram 0 segs } d 0 segs⟩

/-- Settles O48: SHOWINT is one rendering of four looked-up characters and blanks, none of which has a point. -/
theorem showIntegerStoresFirstFour : Obligations.ShowIntegerStoresFirstFour := by
  refine ⟨fun b => decode_cport_of_op, fun s d a hmode => ⟨_, intSegments s.font a.toInt, exec_showint hmode a, rfl, ?_⟩⟩
  obtain ⟨hdigits, hmode', hpower, hcontrol, hemits⟩ :=
    showSegments_keeps_and_sends s d (intSegments_length s.font a.toInt)
  exact ⟨hdigits, hmode', hpower, hcontrol, fun ht => (pointClear_fontMap ht _).blanks_append _, hemits⟩

/-- Settles O49: SHOWFLT1 is one rendering of the last four of its list. -/
theorem showTenthsStoresLastFour : Obligations.ShowTenthsStoresLastFour := by
  refine ⟨fun b => decode_cport_of_op, fun s d a hmode => ?_⟩
  obtain ⟨whole, last, hwhole, hsegs⟩ := tenthsSegments_eq s.font a.toInt
  refine ⟨_, fltSegments s.font a.toInt, whole, last, exec_showflt1 hmode a, hwhole.symm, ?_,
    showSegments_keeps_and_sends s d (fltSegments_length s.font a.toInt)⟩
  rw [fltSegments, hsegs, List.append_assoc]
  rfl

/-- Settles O50: the third of the four segments has the point, and it is stored at position 2. -/
theorem thePointStandsAtPositionTwo : Obligations.ThePointStandsAtPositionTwo := by
  intro s t d a hmode hfont h p hp
  cases (exec_showflt1 hmode a).symm.trans h
  obtain ⟨x, y, last, fraction, hsegs, hclear⟩ := fltSegments_point hfont a.toInt
  obtain ⟨-, hdigits, -⟩ := digitsAre_showSegments s d (fltSegments_length s.font a.toInt)
  rw [hsegs] at hdigits ⊢
  match p with
  | 0 => rw [hdigits 0 x rfl, hclear x (by simp)]; decide
  | 1 => rw [hdigits 1 y rfl, hclear y (by simp)]; decide
  | 2 => rw [hdigits 2 _ rfl, withPoint_point]; decide
  | 3 => rw [hdigits 3 fraction rfl, hclear fraction (by simp)]; decide
  | p + 4 => omega

end Sys2Proof.Machine

/-! The front end (43_renderers R193; 30_encoding R95): an integer operand is formed exactly when it fits. -/

namespace Sys2Proof.Machine

theorem toOperand_of_fits {v : Int} (hlow : -2 ^ 31 ≤ v) (hhigh : v < 2 ^ 31) :
    ∃ a, toOperand v = some a ∧ a.toInt = v :=
  ⟨BitVec.ofInt 32 v, if_pos ⟨hlow, hhigh⟩, BitVec.toInt_ofInt_eq_self (by omega) hlow hhigh⟩

theorem toOperand_of_outside {v : Int} (hout : v < -2 ^ 31 ∨ 2 ^ 31 ≤ v) : toOperand v = none :=
  if_neg (by omega)

/-- A command of one integer operand: formed with that operand when the integer fits, and not formed otherwise (D19). -/
theorem map_toOperand_forms_or_refuses (v : Int) (command : Word → Instr) :
    (-2 ^ 31 ≤ v → v < 2 ^ 31 → ∃ a, (toOperand v).map command = some (command a) ∧ a.toInt = v) ∧
      (v < -2 ^ 31 ∨ 2 ^ 31 ≤ v → (toOperand v).map command = none) := by
  refine ⟨fun hlow hhigh => ?_, fun hout => by rw [toOperand_of_outside hout]; rfl⟩
  obtain ⟨a, ha, hint⟩ := toOperand_of_fits hlow hhigh
  exact ⟨a, by rw [ha]; rfl, hint⟩

theorem formCommand_showInteger (num : Int) {den : Nat} (hden : 0 < den) :
    formCommand (.showInteger (.fraction num den)) = (toOperand (truncFrac num den)).map .showint := by
  rw [formCommand, showIntegerOperand, if_neg (by omega)]

theorem formCommand_showFloat1 (num : Int) {den : Nat} (hden : 0 < den) :
    formCommand (.showFloat1 (.fraction num den)) = (toOperand (roundHazFrac (num * 10) den)).map .showflt1 := by
  rw [formCommand, showFloat1Operand, if_neg (by omega)]

theorem formCommand_setPower (on : Bool) : ∃ a, formCommand (.setPower on) = some (.setpwr a) ∧ onFlag a = on := by
  cases on with
  | true => exact ⟨1, rfl, rfl⟩
  | false => exact ⟨0, rfl, rfl⟩

theorem writeByteOperand_toNat (v : Int) : ((writeByteOperand v).toNat : Int) = v % 256 := by
  rw [writeByteOperand, BitVec.toNat_ofInt]
  omega

/-- Settles O54: the calls with an integer operand by whether it fits, the others by what they form. -/
theorem frontEndFormsOrRefuses : Obligations.FrontEndFormsOrRefuses := by
  refine ⟨⟨rfl, rfl⟩, fun num den hden => ?_, fun _ _ => rfl, formCommand_setPower, fun v hlow hhigh => ?_, ⟨rfl, rfl⟩,
    fun _ => ⟨rfl, rfl⟩, ⟨rfl, rfl⟩, fun v => ⟨writeByteOperand v, rfl, writeByteOperand_toNat v⟩⟩
  · rw [formCommand_showInteger num hden, formCommand_showFloat1 num hden]
    obtain ⟨hforms, hrefuses⟩ := map_toOperand_forms_or_refuses (truncFrac num den) .showint
    exact ⟨hforms, hrefuses, map_toOperand_forms_or_refuses (roundHazFrac (num * 10) den) .showflt1⟩
  · obtain ⟨a, ha, hint⟩ := toOperand_of_fits hlow hhigh
    exact ⟨a, by rw [formCommand, ha]; rfl, hint, fun clk dio => by rw [formCommand, Option.getD_some, ha]; rfl⟩

end Sys2Proof.Machine

/-! No exception (60_exceptions R215, R216): every instruction completes, which instructions change nothing, and the one input
that a step refuses. -/

namespace Sys2Proof.Machine

/-! ### Every instruction completes -/

theorem whenActive_completes (s : State) (k : Driver → State) : ∃ t, whenActive s k = .next t := by
  cases hmode : s.mode with
  | uninitialized => exact ⟨s, whenActive_uninitialized hmode k⟩
  | active d => exact ⟨k d, whenActive_active hmode k⟩

theorem exec_completes (i : Instr) (s : State) : ∃ t, exec i s = .next t := by
  cases i with
  | init _ _ _ | tReserved _ | cReserved _ => exact ⟨_, rfl⟩
  | _ => exact whenActive_completes s _

/-- Settles O13: what an answer of exec keeps is `exec_fields`. -/
theorem everyInstructionCompletes : Obligations.EveryInstructionCompletes := by
  intro i s
  obtain ⟨t, ht⟩ := exec_completes i s
  obtain ⟨-, -, -, hcontrol, -⟩ := exec_fields ht
  exact ⟨t, ht, hcontrol⟩

/-! ### The silent no-ops -/

/-- The causes (2) and (3) of R216, which the instruction alone decides: a start position outside the mirror, and a reserved
opcode (D21). -/
def NoopByOperand (i : Instr) : Prop :=
  (∃ a len data, i = .wrmem a len data ∧ ¬ (0 ≤ a.toInt ∧ a.toInt < 16)) ∨ ∃ low, i = .cReserved low ∨ i = .tReserved low

/-- Every other instruction has an event to emit: a frame's first, or its one pin write. -/
theorem noopByOperand_of_emission_eq_nil {i : Instr} {s : State} {d : Driver} (h : emission i s d = []) :
    NoopByOperand i := by
  cases i with
  | wrmem a len data =>
    refine .inl ⟨a, len, data, rfl, fun hrange => ?_⟩
    rw [emission, startPosition, if_pos hrange] at h
    cases h
  | cReserved low => exact .inr ⟨low, .inl rfl⟩
  | tReserved low => exact .inr ⟨low, .inr rfl⟩
  | _ => cases h

theorem exec_of_noopByOperand {i : Instr} (h : NoopByOperand i) (s : State) : exec i s = .next s := by
  obtain ⟨a, len, data, rfl, hout⟩ | ⟨low, rfl | rfl⟩ := h
  · cases hmode : s.mode with
    | uninitialized => exact exec_uninitialized hmode nofun
    | active d => exact exec_wrmem_out_of_range hmode hout len data
  · rfl
  · rfl

/-- An instruction that leaves an Active state as it was had nothing to emit: a nonempty emission would have lengthened
TRACE. -/
theorem noopByOperand_of_exec_self {i : Instr} {s : State} {d : Driver} (hmode : s.mode = .active d)
    (h : exec i s = .next s) : NoopByOperand i := by
  obtain ⟨d', hnew⟩ := newEvents_eq_emission hmode h
  exact noopByOperand_of_emission_eq_nil (hnew.symm.trans List.drop_length)

/-- INIT leaves an Active state, so it changes an uninitialized one. -/
theorem not_init_of_exec_self {i : Instr} {s : State} (hmode : s.mode = .uninitialized) (h : exec i s = .next s)
    (clk dio : PinId) (a : Word) : i ≠ .init clk dio a := by
  rintro rfl
  have hactive : (emitAll (initRegisters s (initDriver clk dio a)) _).mode = s.mode :=
    congrArg State.mode (Host.Outcome.next.inj ((exec_init clk dio a s).symm.trans h))
  exact nomatch hactive.trans hmode

/-- Settles O14: while Uninitialized every instruction but INIT is a no-op; in an Active state the instruction alone decides.
The argument does not ask for the port. -/
theorem silentNoopsAreExactlyTheListed : Obligations.SilentNoopsAreExactlyTheListed := by
  refine fun i s _ => ⟨fun h => ?_, ?_⟩
  · cases hmode : s.mode with
    | uninitialized => exact .inl ⟨rfl, not_init_of_exec_self hmode h⟩
    | active d => exact .inr (noopByOperand_of_exec_self hmode h)
  · rintro (⟨hmode, hinit⟩ | hnoop)
    · exact exec_uninitialized hmode hinit
    · exact exec_of_noopByOperand hnoop s

/-! ### The one refusal -/

theorem decode_eq_unknownFirstByte {r : Request} {b : Byte} (h : decode r = .unknownFirstByte b) :
    r = .wire b ∧ decodeWire b = .unknownFirstByte b := by
  cases r with
  | cport _ | tport _ => cases h
  | wire v =>
    have hbyte : b = v := by
      rw [decode, decodeWire] at h
      split_ifs at h
      exact (Decoded.unknownFirstByte.inj h).symm
    subst hbyte
    exact ⟨rfl, h⟩

theorem step_of_advance {s : State} {rest : List Input} (h : s.inbox = .advance :: rest) :
    step s = .next (emitNext { s with inbox := rest }) := by
  simp [step, serve, h]

/-- An idle block is presented with a wire byte that is no command (30_encoding R87). -/
def PresentsUnknown (s : State) (b : Byte) : Prop :=
  decodeWire b = .unknownFirstByte b ∧ s.seq = .idle ∧
    ∃ rest, s.inbox = .command (.wire b) :: rest ∨ s.inbox = .start (.wire b) :: rest

theorem runRequest_unknownFirstByte {b : Byte} (h : decodeWire b = .unknownFirstByte b) (s : State) :
    runRequest (.wire b) s = .refused (.unknownFirstByte b) := by
  simp [runRequest, decode, h]

theorem step_of_presentsUnknown {s : State} {b : Byte} (h : PresentsUnknown s b) :
    step s = .refused (.unknownFirstByte b) := by
  obtain ⟨hunknown, hidle, rest, hin | hin⟩ := h
  · simp [step, serve, hin, hidle, runRequest_unknownFirstByte hunknown]
  · rw [step_of_start hidle hin, startRequest, runRequest_unknownFirstByte hunknown]

/-- A request at the head of the inputs is answered, whether the block is busy or idle, unless it does not decode. -/
theorem step_answers_request {s : State} {r : Request} {rest : List Input}
    (hin : s.inbox = .command r :: rest ∨ s.inbox = .start r :: rest) :
    (∃ t, step s = .next t) ∨ ∃ b, PresentsUnknown s b := by
  by_cases hidle : s.seq = .idle
  · cases hd : decode r with
    | instr i =>
      obtain ⟨t, ht⟩ := exec_completes i { s with inbox := rest }
      obtain hin | hin := hin
      · exact .inl ⟨t, (step_of_command hidle hin hd).trans ht⟩
      · exact .inl ⟨_, (step_of_start hidle hin).trans (startRequest_instr hd ht)⟩
    | unknownFirstByte b =>
      obtain ⟨rfl, hunknown⟩ := decode_eq_unknownFirstByte hd
      exact .inr ⟨b, hunknown, hidle, rest, hin⟩
  · exact .inl ⟨_, step_of_busy hidle (.inr ⟨r, rest, hin⟩)⟩

theorem step_answers (s : State) : (∃ t, step s = .next t) ∨ ∃ b, PresentsUnknown s b := by
  match hin : s.inbox with
  | [] => exact .inl ⟨_, step_of_no_input hin⟩
  | .advance :: _ => exact .inl ⟨_, step_of_advance hin⟩
  | .reset :: _ => exact .inl ⟨_, step_of_reset hin⟩
  | .command _ :: _ => exact step_answers_request (.inl hin)
  | .start _ :: _ => exact step_answers_request (.inr hin)

/-- Settles O12: a step answers a next state or is presented with an unknown byte, and then refuses it by name. -/
theorem stepsStopOnlyOnUnknownWireBytes : Obligations.StepsStopOnlyOnUnknownWireBytes := by
  refine fun s => ⟨nofun, fun x => ⟨fun h => ?_, ?_⟩⟩
  · obtain ⟨t, ht⟩ | ⟨b, hb⟩ := step_answers s
    · exact nomatch ht.symm.trans h
    · cases (step_of_presentsUnknown hb).symm.trans h
      obtain ⟨hunknown, hidle, rest, hin⟩ := hb
      exact ⟨b, rest, rfl, hunknown, hidle, hin⟩
  · rintro ⟨b, rest, rfl, hunknown, hidle, hin⟩
    exact step_of_presentsUnknown ⟨hunknown, hidle, rest, hin⟩

end Sys2Proof.Machine

/-! The reset input (70_reset R245, 10_state R35): between two commands, and inside a command that is run event by event. -/

namespace Sys2Proof.Machine

/-- Between commands a reset empties TRACE and opens every level again (log 9). -/
theorem hardReset_between_commands {s : State} (hidle : s.seq = .idle) :
    (hardReset s).trace = [] ∧ ∀ p, pinLevel (hardReset s) p = Config.pinResetLevel (hardReset s).resets p := by
  simp [hidle, pinLevel, levelRead]

/-- A reset that cuts a command short keeps TRACE and the levels. -/
theorem hardReset_cuts_command {s : State} (hbusy : s.seq ≠ .idle) :
    (hardReset s).trace = s.trace ∧ (hardReset s).lvl = s.lvl := by
  simp [hbusy]

/-- exec does with any inputs to come what it does with none. -/
theorem exec_with_inbox {i : Instr} {s t : State} (h : exec i { s with inbox := [] } = .next t) (inbox : List Input) :
    exec i { s with inbox := inbox } = .next { t with inbox := inbox } :=
  (exec_inbox i { s with inbox := [] } inbox).trans (by rw [h]; rfl)

/-- The time for one event, taken by a running command. -/
theorem step_of_advance_running {s : State} {r : Request} {index : Nat} {e : Event} {es : List Event} {rest : List Input}
    (hin : s.inbox = .advance :: rest) (hseq : s.seq = seqAt r index (e :: es)) :
    step s = .next { emit s e with seq := seqAt r (index + 1) es, inbox := rest } := by
  rw [step_of_advance hin, emitNext_running_cons (s := { s with inbox := rest }) hseq]
  rfl

/-- While the time for `k` events is presented, a running command emits its next `k` events; then the inputs after it are
served. -/
theorem steps_of_advances {s : State} {r : Request} {index k : Nat} {es : List Event} {rest : List Input}
    (hin : s.inbox = List.replicate k .advance ++ rest) (hseq : s.seq = seqAt r index es) (hk : k ≤ es.length) (n : Nat) :
    steps (k + n) s =
      steps n { emitAll s (es.take k) with seq := seqAt r (index + k) (es.drop k), inbox := rest } := by
  induction k generalizing s index es with
  | zero =>
    rw [List.replicate_zero, List.nil_append] at hin
    simp [← hin, ← hseq]
  | succ k ih =>
    cases es with
    | nil => simp at hk
    | cons e es =>
      rw [Nat.add_right_comm, steps_succ (step_of_advance_running hin hseq), ih rfl rfl (by simpa using hk)]
      simp [emitAll, emit, Nat.add_assoc, Nat.add_comm 1]

/-- A command run event by event in `s`, where run at once it ends in `t`: after `k` of its events, with no input left. -/
def partwayState (r : Request) (s t : State) (k : Nat) : State :=
  { emitAll (startedState r s t) ((newEvents s t).take k) with seq := seqAt r k ((newEvents s t).drop k), inbox := [] }

/-- A command taken by an idle block and cut by a reset after `k` of its events. -/
theorem steps_cut {s t : State} {r : Request} {i : Instr} {k : Nat} (hidle : s.seq = .idle)
    (hin : s.inbox = .start r :: (List.replicate k .advance ++ [.reset])) (hd : decode r = .instr i)
    (ht : exec i { s with inbox := [] } = .next t) (hk : k ≤ (newEvents s t).length) :
    steps (k + 2) s = .next (hardReset (partwayState r s t k)) := by
  have htaken : step s = .next { startedState r s t with inbox := List.replicate k .advance ++ [.reset] } := by
    rw [step_of_start hidle hin, startRequest_instr hd (exec_with_inbox ht _)]
    rfl
  rw [steps_succ htaken, steps_of_advances rfl rfl hk, steps_succ (step_of_reset rfl), Nat.zero_add]
  rfl

/-- Before its last event the command still runs, so the reset keeps the events emitted and the levels they drove. -/
theorem emits_hardReset_partwayState (r : Request) {s t : State} {k : Nat} (hk : k < (newEvents s t).length) :
    emits s (hardReset (partwayState r s t k)) ((newEvents s t).take k) := by
  have hrunning : (partwayState r s t k).seq ≠ .idle := by
    rw [partwayState, seqAt_of_ne_nil r k (by simpa using hk)]
    exact nofun
  obtain ⟨htrace, hlvl⟩ := hardReset_cuts_command hrunning
  refine ⟨htrace, fun p => ?_⟩
  rw [hlvl]
  exact levelRead_driveAll s.lvl _ p

/-- Settles O11: the two readings by whether SEQ is idle; a command cut before its last event still runs when the reset is
taken. -/
theorem resetCutsACommandShort : Obligations.ResetCutsACommandShort := by
  constructor
  · intro s rest hin
    refine ⟨_, step_of_reset hin, rfl, rfl, memRead_nil, rfl, rfl, rfl,
      hardReset_between_commands (s := { s with inbox := rest }), fun hbusy => ?_⟩
    obtain ⟨htrace, hlvl⟩ := hardReset_cuts_command (s := { s with inbox := rest }) hbusy
    refine ⟨htrace, fun p b hb => ?_⟩
    rw [pinLevel, hlvl, hb, Option.getD_some]
  · intro s t r i k hidle hin hd ht hk
    exact ⟨_, steps_cut hidle hin hd ht hk.le, rfl, rfl, rfl, memRead_nil, emits_hardReset_partwayState r hk⟩

end Sys2Proof.Machine

/-! The spacing of pin writes (70_reset R251): every sequence of the bus puts a wait after each pin write, and so does every
concatenation of such sequences. -/

namespace Sys2Proof.Machine

theorem spaced_append {es : List Event} (hes : spaced es = true) (fs : List Event) : spaced (es ++ fs) = spaced fs := by
  fun_induction spaced es with
  | case1 => rfl
  | case2 rest ih | case3 _ _ rest ih => exact ih hes
  | case4 => cases hes

theorem spaced_flatMap {α : Type} {f : α → List Event} (hf : ∀ x, spaced (f x) = true) (xs : List α) :
    spaced (xs.flatMap f) = true := by
  induction xs with
  | nil => rfl
  | cons x xs ih => rwa [List.flatMap_cons, spaced_append (hf x)]

section Spacing
variable (d : Driver)

theorem spaced_byteSeq (v : Byte) : spaced (byteSeq d v) = true :=
  spaced_flatMap (fun _ => rfl) (wireBits v)

theorem spaced_frameSeq (bytes : List Byte) : spaced (frameSeq d bytes) = true := by
  rw [frameSeq, List.append_assoc, spaced_append (es := startSeq d) rfl,
    spaced_append (spaced_flatMap (spaced_byteSeq d) bytes)]
  rfl

theorem spaced_dataCmd_dispCtl (on : Bool) (bri : BitVec 3) : spaced (dataCmdSeq d ++ dispCtlSeq d on bri) = true :=
  (spaced_append (spaced_frameSeq d _) _).trans (spaced_frameSeq d _)

theorem spaced_memWriteSeq (pos : BitVec 4) (payload : List Byte) (on : Bool) (bri : BitVec 3) :
    spaced (memWriteSeq d pos payload on bri) = true := by
  rw [memWriteSeq, List.append_assoc, dataCmdSeq, spaced_append (spaced_frameSeq d _), addrWriteSeq,
    spaced_append (spaced_frameSeq d _)]
  exact spaced_frameSeq d _

/-- The handshake and what follows it are spaced exactly under HS_WAIT (log 5). -/
theorem spaced_handshakeSeq_append (hsWait : Bool) {rest : List Event} (hrest : spaced rest = true) :
    spaced (handshakeSeq hsWait d ++ rest) = true ↔ hsWait = true := by
  cases hsWait with
  | true => exact iff_of_true hrest rfl
  | false => exact iff_of_false nofun nofun

end Spacing

/-- Everything INIT leaves of the state before it is the trace, and what it adds there (42_display R156). -/
theorem exec_init_fields {clk dio : PinId} {a : Word} {s t : State} (h : exec (.init clk dio a) s = .next t) :
    t.mode = .active (initDriver clk dio a) ∧ t.power = true ∧ t.gram = [] ∧ t.past = s.past ∧
      t.trace = s.trace ++ (handshakeSeq Config.hsWait (initDriver clk dio a) ++
        (dataCmdSeq (initDriver clk dio a) ++ dispCtlSeq (initDriver clk dio a) true (brightnessOperand a))) := by
  cases (exec_init clk dio a s).symm.trans h
  exact ⟨rfl, rfl, rfl, rfl, congrArg _ (List.append_assoc ..)⟩

/-- The new events of an instruction are its emission, or none at all. -/
theorem spaced_newEvents {i : Instr} {s t : State} (h : exec i s = .next t)
    (hspaced : ∀ d, spaced (emission i s d) = true) : spaced (newEvents s t) = true := by
  cases exec_effect h with
  | nothing => rw [newEvents, List.drop_length]; rfl
  | emitted u d writes =>
    have hnew : newEvents s (emitAll u (emission i s d)) = emission i s d := by simp [newEvents, writes.trace]
    rw [hnew]
    exact hspaced d

/-- Settles O30: instruction by instruction, the emission is made of spaced sequences; INIT's is the handshake and two
frames. -/
theorem everyPinWriteIsFollowedByAWait : Obligations.EveryPinWriteIsFollowedByAWait := by
  intro i s t h
  cases i with
  | tSetclk _ | tSetdat _ => trivial
  | init clk dio a =>
    obtain ⟨-, -, -, -, htrace⟩ := exec_init_fields h
    have hrest := spaced_dataCmd_dispCtl (initDriver clk dio a) true (brightnessOperand a)
    rw [newEvents, htrace, List.drop_left]
    exact ⟨_, rfl, hrest, spaced_handshakeSeq_append _ Config.hsWait hrest⟩
  | tStart | tStop | tReserved _ | cReserved _ => exact spaced_newEvents h fun _ => rfl
  | tWbyte _ | wData | wAddr _ | wDisp _ _ => exact spaced_newEvents h fun d => spaced_byteSeq d _
  | tDatacmd | tDispctl _ _ | tAddrwr _ _ _ | setpwr _ => exact spaced_newEvents h fun d => spaced_frameSeq d _
  | setbri _ => exact spaced_newEvents h fun d => spaced_dataCmd_dispCtl d _ _
  | clear | refresh | showint _ | showflt1 _ => exact spaced_newEvents h fun d => spaced_memWriteSeq d _ _ _ _
  | wrmem a len data =>
    refine spaced_newEvents h fun d => ?_
    rw [emission]
    cases startPosition a with
    | none => rfl
    | some pos => exact spaced_memWriteSeq d pos _ _ _

end Sys2Proof.Machine

/-! INIT's handshake (42_display_controller R156), as the observer on its pins sees it: no frame, and both lines low, so that
the frame after it does not begin with both lines high (70_reset R257). -/

namespace Sys2Proof.Machine

section Handshake
variable {d : Driver}

theorem deviceRun_handshakeSeq (hpins : d.pinclk ≠ d.pindio) {m : DeviceRx} (hpos : m.rx.pos = .outside 0)
    (hsWait : Bool) : ∃ matched, deviceRun d.pinclk d.pindio m (handshakeSeq hsWait d) =
      ⟨⟨m.rx.frames, .outside matched⟩, ⟨some false, some false⟩, false, m.device⟩ := by
  refine ⟨if hsWait then 2 else 1, ?_⟩
  cases hsWait <;>
    simp [handshakeSeq, deviceRun, deviceNext, rxNext, hpins, hpos, rxOutside, breaksFraming, beginsFromIdle]

/-- The first frame after the handshake is decoded, and given to the device as one begun from low lines. -/
theorem deviceRun_handshake_frameSeq (hpins : d.pinclk ≠ d.pindio) {m : DeviceRx} (hpos : m.rx.pos = .outside 0)
    (hsWait : Bool) (bytes : List Byte) :
    deviceRun d.pinclk d.pindio m (handshakeSeq hsWait d ++ frameSeq d bytes) =
      ⟨⟨m.rx.frames ++ [bytes], .outside 0⟩, ⟨some true, some true⟩, false, deviceFrame m.device false bytes⟩ := by
  obtain ⟨matched, hhandshake⟩ := deviceRun_handshakeSeq hpins hpos hsWait
  rw [deviceRun_append, hhandshake, deviceRun_frameSeq hpins rfl (by simp [breaksFraming])]
  simp [beginsFromIdle]

theorem rxRun_handshake_frameSeq (hpins : d.pinclk ≠ d.pindio) {trace : List Event}
    (hpos : (rxRun d.pinclk d.pindio trace).pos = .outside 0) (hsWait : Bool) (bytes : List Byte) :
    rxRun d.pinclk d.pindio (trace ++ (handshakeSeq hsWait d ++ frameSeq d bytes)) =
      ⟨frames d.pinclk d.pindio trace ++ [bytes], .outside 0⟩ := by
  have hrun := congrArg DeviceRx.rx (deviceRun_handshake_frameSeq hpins
    (m := { deviceRxStart with rx := rxRun d.pinclk d.pindio trace }) hpos hsWait bytes)
  rwa [deviceRun_rx, ← rxRun_append] at hrun

end Handshake

/-- A data command begun from low lines teaches the device's view nothing and takes nothing from it (U14). -/
theorem deviceFrame_dataCmd_from_low {r : DeviceRegs} (hbracket : r.bracket ≠ .pending) :
    deviceFrame (.regs r) false [dataCmdByte] = .regs { r with bracket := .closed } := by
  simp only [deviceFrame, decodeWire_dataCmdByte, Bool.false_eq_true, if_false]
  cases hb : r.bracket with
  | closed | armed => simp [deviceDoubt, hb]
  | pending => exact absurd hb hbracket

/-- INIT makes the link clean, whatever the levels were before it: its second frame is begun from both lines high. -/
theorem cleanLink_init {s t : State} {clk dio : PinId} {a : Word} {r : DeviceRegs} (hview : deviceView clk dio s = .regs r)
    (h : exec (.init clk dio a) s = .next t) :
    CleanLink clk dio t (DeviceRegs.controlled { r with bracket := .closed } true (brightnessOperand a)) := by
  obtain ⟨hpins, hpos, hdevice, hbracket⟩ := deviceView_regs hview
  obtain ⟨-, -, -, hpast, htrace⟩ := exec_init_fields h
  have hfirst := deviceRun_handshake_frameSeq (d := initDriver clk dio a) hpins (m := deviceRx clk dio s)
    (by rwa [deviceRx_rx]) Config.hsWait [dataCmdByte]
  rw [hdevice, deviceFrame_dataCmd_from_low hbracket] at hfirst
  have hrest : AtRest (deviceRun clk dio (deviceRx clk dio s) (handshakeSeq Config.hsWait (initDriver clk dio a) ++
      dataCmdSeq (initDriver clk dio a))) (.regs { r with bracket := .closed }) :=
    ⟨congrArg (·.rx.pos) hfirst, congrArg (·.levels) hfirst, congrArg (·.device) hfirst⟩
  refine ⟨hpins, ?_, nofun⟩
  rw [deviceRx_of_emitted htrace hpast, ← List.append_assoc, deviceRun_append, ← deviceFrame_dispCtl]
  exact hrest.frameSeq (d := initDriver clk dio a) hpins _

/-- Settles O45: the view is that of the second frame, on registers the first left as they were but for the bracket. -/
theorem initDoesNotClearTheDevice : Obligations.InitDoesNotClearTheDevice := by
  intro s t clk dio a r hview h
  obtain ⟨hlink, hview'⟩ := cleanLink_iff.mp (cleanLink_init hview h)
  obtain ⟨-, -, hgram, -, -⟩ := exec_init_fields h
  exact ⟨hlink, _, hview', rfl, rfl, rfl, rfl, fun p => by rw [hgram, memRead_nil]⟩

end Sys2Proof.Machine

/-! The frames every command sends (70_reset R253, 40_transport R120), as the frame decoder reads them back. -/

namespace Sys2Proof.Machine

/-- On the pins of `d` the decoder has read the frames `fs` between `s` and `t`, and stands outside a frame in `t`. -/
def FramesAdded (d : Driver) (s t : State) (fs : List (List Byte)) : Prop :=
  (rxRun d.pinclk d.pindio t.trace).pos = .outside 0 ∧
    (frames d.pinclk d.pindio t.trace).drop (frames d.pinclk d.pindio s.trace).length = fs

section Sent
variable {d : Driver} {s t : State}

theorem framesAdded_of_frames {fs : List (List Byte)}
    (hframes : frames d.pinclk d.pindio t.trace = frames d.pinclk d.pindio s.trace ++ fs)
    (hpos : (rxRun d.pinclk d.pindio t.trace).pos = .outside 0) : FramesAdded d s t fs :=
  ⟨hpos, by rw [hframes, List.drop_left]⟩

variable (hpins : d.pinclk ≠ d.pindio) (hpos : (rxRun d.pinclk d.pindio s.trace).pos = .outside 0)
include hpins hpos

theorem framesAdded_of_trace {fs : List (List Byte)} (htrace : t.trace = s.trace ++ fs.flatMap (frameSeq d)) :
    FramesAdded d s t fs := by
  obtain ⟨hframes, hpos'⟩ := framesAreDecodedBack d s.trace fs hpins hpos
  rw [← htrace] at hframes hpos'
  exact framesAdded_of_frames hframes hpos'

/-- Frames emitted after register writes. -/
theorem framesAdded_emitAll {u : State} (hu : WritesRegisters s u) (fs : List (List Byte)) :
    FramesAdded d s (emitAll u (fs.flatMap (frameSeq d))) fs :=
  framesAdded_of_trace hpins hpos (by rw [emitAll_trace, hu.trace])

/-- INIT's two frames, read after its handshake. -/
theorem framesAdded_after_handshake {hsWait : Bool} {first second : List Byte}
    (htrace : t.trace = s.trace ++ (handshakeSeq hsWait d ++ (frameSeq d first ++ frameSeq d second))) :
    FramesAdded d s t [first, second] := by
  have hfirst := rxRun_handshake_frameSeq hpins hpos hsWait first
  obtain ⟨hframes, hpos'⟩ := framesAreDecodedBack d _ [second] hpins (congrArg Rx.pos hfirst)
  rw [List.flatMap_singleton, List.append_assoc, List.append_assoc, ← htrace] at hframes hpos'
  refine framesAdded_of_frames (hframes.trans ?_) hpos'
  rw [frames, hfirst, List.append_assoc, List.singleton_append]

/-- A memory write is bracketed: a data command before it, a display control after it. -/
theorem framesAdded_writeMemory (gram : Memory) (pos : BitVec 4) (payload : List Byte) :
    FramesAdded d s (writeMemory { s with gram := gram } d pos payload)
      [[0x40#8], addrByte pos :: payload, [dispCtlByte s.power d.bright]] := by
  refine framesAdded_of_trace hpins hpos ?_
  simp [memWriteSeq, dataCmdSeq, addrWriteSeq, dispCtlSeq, dataCmdByte]

/-- The commands that write the four digits send what the mirror then holds. -/
theorem exec_digits_framesAdded {i : Instr} (hmode : s.mode = .active d) (h : exec i s = .next t)
    (haddr : addresses i 0 4) :
    FramesAdded d s t [[0x40#8], 0xC0#8 :: digitCells t.gram, [dispCtlByte t.power d.bright]] := by
  obtain ⟨gram, pos, payload, rfl, hnat, hlength⟩ := exec_addresses hmode h haddr
  obtain rfl : pos = 0 := BitVec.eq_of_toNat_eq hnat
  have hsent : digitCells (writeMemory { s with gram := gram } d 0 payload).gram = payload :=
    digitCells_mirrorStore gram hlength
  rw [hsent]
  exact framesAdded_writeMemory hpins hpos gram 0 payload

end Sent

theorem exists_driver_of_ne_uninitialized {s : State} (h : s.mode ≠ .uninitialized) : ∃ d, s.mode = .active d := by
  cases hmode : s.mode with
  | uninitialized => exact absurd hmode h
  | active d => exact ⟨d, rfl⟩

theorem exec_addresses_mode {i : Instr} {s t : State} {d : Driver} (hmode : s.mode = .active d) (h : exec i s = .next t)
    {start count : Nat} (haddr : addresses i start count) : t.mode = .active d := by
  obtain ⟨gram, pos, payload, rfl, -, -⟩ := exec_addresses hmode h haddr
  exact hmode

/-- Settles O42: command by command, each trace grows by frames, INIT's after its handshake. -/
theorem commandsSendTheseFrames : Obligations.CommandsSendTheseFrames := by
  intro i s t d h hmode' hpins hpos hactive
  rw [dispCtlByte_eq_fields]
  by_cases hinit : ∃ clk dio a, i = .init clk dio a
  · obtain ⟨clk, dio, a, rfl⟩ := hinit
    obtain ⟨hmode, hpower, -, -, htrace⟩ := exec_init_fields h
    cases hmode.symm.trans hmode'
    obtain ⟨hpos', hadded⟩ := framesAdded_after_handshake hpins hpos htrace
    rw [hpower]
    exact ⟨fun _ => hpos', hadded⟩
  obtain ⟨e, hmode⟩ := exists_driver_of_ne_uninitialized (hactive.resolve_right hinit)
  cases i with
  | init clk dio a => exact absurd ⟨clk, dio, a, rfl⟩ hinit
  | setbri a =>
    cases (exec_setbri hmode a).symm.trans h
    cases hmode'
    obtain ⟨hpos', hadded⟩ := framesAdded_emitAll hpins hpos (writesRegisters_setDriver s (e.withBrightness a))
      [[0x40#8], [dispCtlByte s.power (brightnessOperand a)]]
    exact ⟨fun _ => hpos', hadded⟩
  | setpwr a =>
    cases (exec_setpwr hmode a).symm.trans h
    cases hmode.symm.trans hmode'
    obtain ⟨hpos', hadded⟩ := framesAdded_emitAll hpins hpos (writesRegisters_setPower s (onFlag a))
      [[dispCtlByte (onFlag a) d.bright]]
    exact ⟨fun _ => hpos', hadded⟩
  | wrmem a len data =>
    by_cases hrange : 0 ≤ a.toInt ∧ a.toInt < 16
    · obtain ⟨pos, hstart, hnat⟩ := startPosition_of_lt (Int.toNat_of_nonneg hrange.1).symm (by omega)
      cases (exec_wrmem hmode hstart len data).symm.trans h
      cases hmode.symm.trans hmode'
      obtain ⟨hpos', hadded⟩ := framesAdded_writeMemory hpins hpos s.gram pos (payloadBytes len data)
      refine ⟨fun _ => hpos', hadded.trans ?_⟩
      rw [if_pos hrange, ← hnat, addrByte_eq_ofNat]
      rfl
    · cases (exec_wrmem_out_of_range hmode hrange len data).symm.trans h
      exact ⟨fun _ => hpos, List.drop_length.trans (if_neg hrange).symm⟩
  | clear | refresh | showint _ | showflt1 _ =>
    cases (exec_addresses_mode hmode h ⟨rfl, rfl⟩).symm.trans hmode'
    obtain ⟨hpos', hadded⟩ := exec_digits_framesAdded hpins hpos hmode h ⟨rfl, rfl⟩
    exact ⟨fun _ => hpos', hadded⟩
  | cReserved _ => cases h; exact ⟨fun _ => hpos, trivial⟩
  | _ => exact ⟨nofun, trivial⟩

end Sys2Proof.Machine
